-- ==== Sys2Proof/Word.lean ====
section
/-! DEFINITION. The widths of the block: 32-bit words, bytes, 64-bit input-memory addresses (R5, R6). -/

namespace Sys2Proof

/-- A 32-bit unsigned word: HashState, registers, schedule, constants (R5, R7). -/
abbrev Word := BitVec 32

/-- One byte of the input memory, the smallest unit the engine reads (R61). -/
abbrev Byte := BitVec 8

/-- A byte address of the input memory, `ADDR_BITS = 64` (R6). -/
abbrev Addr := BitVec 64

end Sys2Proof
end

