-- ==== Sys2Proof/Request.lean ====
section
/-! DEFINITION. What reaches the block from the host before it is decoded: a command statement (format C) or an
access to the register window (format BUS, and every access R105 leaves undefined). No wire carries the 9-bit
descriptor of R85, and a register moves as a numeric word whatever the bus byte order (R65), so a request
holds numbers, not bytes of memory (log 2). -/

namespace Sys2Proof

/-- One request to a register window. `offset` is in bytes from `REG_BASE`, `size` is the width in bytes. -/
inductive Request where
  /-- The statement form of a command, e.g. `RESET`: it means `WR CMD, word` (R86). -/
  | command (word : Word)
  /-- A read access (`dir` = R of R85). -/
  | read (offset size : Nat)
  /-- A write access with its data word (`dir` = W of R85). -/
  | write (offset size : Nat) (data : Word)
deriving DecidableEq, Repr

/-- What R83 decodes a command word to. -/
inductive Command where
  | reset
  | compress
  | digest
  | illegal (rsv : BitVec 28) (op : BitVec 4)
deriving DecidableEq, Repr

/-- Why an access is no transaction of this block (R85, R105). -/
inductive DecodeError where
  /-- A sub-word access or one wider than 32 bits. -/
  | notWordWide
  /-- An offset that is not a multiple of 4. -/
  | misaligned
  /-- An offset beyond 0x3C. -/
  | beyondWindow
deriving DecidableEq, Repr

end Sys2Proof
end

