-- ==== Sys2Proof/Syntax.lean ====
section
/-! DEFINITION. The instructions: one constructor per row of spec/opcode_table.json. The first four are the
command words (format C, R81 to R83), the others the bus transactions (format BUS, R85); a write carries its
32-bit data word. -/

namespace Sys2Proof

inductive Instr where
  /-- RESET, command word 0x00000001 (R110). -/
  | reset
  /-- COMPRESS, command word 0x00000002 (R133). -/
  | compress
  /-- DIGEST, command word 0x00000003 (R144). -/
  | digest
  /-- ILLEGAL, every other command word: RSV is bits 31:4, OP bits 3:0 (R81, R83, R161). -/
  | illegal (rsv : BitVec 28) (op : BitVec 4)
  /-- `RD CMD`, TXN 0x000 (R100). -/
  | rdCmd
  /-- `WR CMD, v`, TXN 0x100 (R100). -/
  | wrCmd (v : Word)
  /-- `RD STATUS`, TXN 0x004 (R101). -/
  | rdStatus
  /-- `WR STATUS, v`, TXN 0x104 (R101). -/
  | wrStatus (v : Word)
  /-- `RD SRC_LO`, TXN 0x008 (R102). -/
  | rdSrcLo
  /-- `WR SRC_LO, v`, TXN 0x108 (R102). -/
  | wrSrcLo (v : Word)
  /-- `RD SRC_HI`, TXN 0x00C (R102). -/
  | rdSrcHi
  /-- `WR SRC_HI, v`, TXN 0x10C (R102). -/
  | wrSrcHi (v : Word)
  /-- `RD LEN_LO`, TXN 0x010 (R102). -/
  | rdLenLo
  /-- `WR LEN_LO, v`, TXN 0x110 (R102). -/
  | wrLenLo (v : Word)
  /-- `RD LEN_HI`, TXN 0x014 (R102). -/
  | rdLenHi
  /-- `WR LEN_HI, v`, TXN 0x114 (R102). -/
  | wrLenHi (v : Word)
  /-- `RD 0x18`, TXN 0x018 (R104). -/
  | rd0x18
  /-- `WR 0x18, v`, TXN 0x118 (R104). -/
  | wr0x18 (v : Word)
  /-- `RD 0x1C`, TXN 0x01C (R104). -/
  | rd0x1C
  /-- `WR 0x1C, v`, TXN 0x11C (R104). -/
  | wr0x1C (v : Word)
  /-- `RD DOUT0`, TXN 0x020 (R103). -/
  | rdDout0
  /-- `WR DOUT0, v`, TXN 0x120 (R103). -/
  | wrDout0 (v : Word)
  /-- `RD DOUT1`, TXN 0x024 (R103). -/
  | rdDout1
  /-- `WR DOUT1, v`, TXN 0x124 (R103). -/
  | wrDout1 (v : Word)
  /-- `RD DOUT2`, TXN 0x028 (R103). -/
  | rdDout2
  /-- `WR DOUT2, v`, TXN 0x128 (R103). -/
  | wrDout2 (v : Word)
  /-- `RD DOUT3`, TXN 0x02C (R103). -/
  | rdDout3
  /-- `WR DOUT3, v`, TXN 0x12C (R103). -/
  | wrDout3 (v : Word)
  /-- `RD DOUT4`, TXN 0x030 (R103). -/
  | rdDout4
  /-- `WR DOUT4, v`, TXN 0x130 (R103). -/
  | wrDout4 (v : Word)
  /-- `RD DOUT5`, TXN 0x034 (R103). -/
  | rdDout5
  /-- `WR DOUT5, v`, TXN 0x134 (R103). -/
  | wrDout5 (v : Word)
  /-- `RD DOUT6`, TXN 0x038 (R103). -/
  | rdDout6
  /-- `WR DOUT6, v`, TXN 0x138 (R103). -/
  | wrDout6 (v : Word)
  /-- `RD DOUT7`, TXN 0x03C (R103). -/
  | rdDout7
  /-- `WR DOUT7, v`, TXN 0x13C (R103). -/
  | wrDout7 (v : Word)
deriving DecidableEq, Repr

end Sys2Proof
end

