-- ==== Sys2Proof/WellFormed.lean ====
section
/-! DEFINITION. Which terms of `Instr` stand for a word of the opcode table. The one relation the types do not
enforce: ILLEGAL is the fallback row, so its fields must not spell RESET, COMPRESS or DIGEST (R83). -/

namespace Sys2Proof

/-- The command words R83 decodes to RESET, COMPRESS or DIGEST, field by field (R81, R82). -/
def isLegalCommand (rsv : BitVec 28) (op : BitVec 4) : Bool :=
  rsv == 0 && (op == 1 || op == 2 || op == 3)

/-- The instruction is the meaning of some encoding. -/
def wellFormed : Instr → Bool
  | .reset => true
  | .compress => true
  | .digest => true
  | .illegal rsv op => !isLegalCommand rsv op
  | .rdCmd => true
  | .wrCmd _ => true
  | .rdStatus => true
  | .wrStatus _ => true
  | .rdSrcLo => true
  | .wrSrcLo _ => true
  | .rdSrcHi => true
  | .wrSrcHi _ => true
  | .rdLenLo => true
  | .wrLenLo _ => true
  | .rdLenHi => true
  | .wrLenHi _ => true
  | .rd0x18 => true
  | .wr0x18 _ => true
  | .rd0x1C => true
  | .wr0x1C _ => true
  | .rdDout0 => true
  | .wrDout0 _ => true
  | .rdDout1 => true
  | .wrDout1 _ => true
  | .rdDout2 => true
  | .wrDout2 _ => true
  | .rdDout3 => true
  | .wrDout3 _ => true
  | .rdDout4 => true
  | .wrDout4 _ => true
  | .rdDout5 => true
  | .wrDout5 _ => true
  | .rdDout6 => true
  | .wrDout6 _ => true
  | .rdDout7 => true
  | .wrDout7 _ => true

end Sys2Proof
end

