-- ==== Sys2Proof/Decode.lean ====
section
/-! DEFINITION. From a request to the instruction it is (R81 to R83, R85, R105), total on every request and
rejecting by name; then the encoder; then the opcode table's numbering of an instruction's bits. -/

namespace Sys2Proof

/-! ## Command words (format C) -/

/-- OP, bits 3:0 of a command word (R81). -/
def opField (c : Word) : BitVec 4 := c.extractLsb' 0 4

/-- RSV, bits 31:4 of a command word (R81). -/
def rsvField (c : Word) : BitVec 28 := c.extractLsb' 4 28

/-- R83's `decode`. -/
def decodeCommand (c : Word) : Command :=
  if c = 0x00000001 then .reset
  else if c = 0x00000002 then .compress
  else if c = 0x00000003 then .digest
  else .illegal (rsvField c) (opField c)

/-- The row of the opcode table a command stands for. -/
def commandInstr : Command → Instr
  | .reset => .reset
  | .compress => .compress
  | .digest => .digest
  | .illegal rsv op => .illegal rsv op

/-! ## Bus transactions (format BUS) -/

/-- The descriptor `TXN = dir << 8 | offset[7:0]`, `dir` = 1 for a write (R85). -/
def txn (isWrite : Bool) (offset : Nat) : BitVec 9 :=
  BitVec.ofBool isWrite ++ BitVec.ofNat 8 offset

/-- The row of each descriptor of R80's register map (R85); `v` is the data word of a write. -/
def decodeTxn (t : BitVec 9) (v : Word) : Option Instr :=
  match t with
  | 0x000#9 => some .rdCmd
  | 0x004#9 => some .rdStatus
  | 0x008#9 => some .rdSrcLo
  | 0x00C#9 => some .rdSrcHi
  | 0x010#9 => some .rdLenLo
  | 0x014#9 => some .rdLenHi
  | 0x018#9 => some .rd0x18
  | 0x01C#9 => some .rd0x1C
  | 0x020#9 => some .rdDout0
  | 0x024#9 => some .rdDout1
  | 0x028#9 => some .rdDout2
  | 0x02C#9 => some .rdDout3
  | 0x030#9 => some .rdDout4
  | 0x034#9 => some .rdDout5
  | 0x038#9 => some .rdDout6
  | 0x03C#9 => some .rdDout7
  | 0x100#9 => some (.wrCmd v)
  | 0x104#9 => some (.wrStatus v)
  | 0x108#9 => some (.wrSrcLo v)
  | 0x10C#9 => some (.wrSrcHi v)
  | 0x110#9 => some (.wrLenLo v)
  | 0x114#9 => some (.wrLenHi v)
  | 0x118#9 => some (.wr0x18 v)
  | 0x11C#9 => some (.wr0x1C v)
  | 0x120#9 => some (.wrDout0 v)
  | 0x124#9 => some (.wrDout1 v)
  | 0x128#9 => some (.wrDout2 v)
  | 0x12C#9 => some (.wrDout3 v)
  | 0x130#9 => some (.wrDout4 v)
  | 0x134#9 => some (.wrDout5 v)
  | 0x138#9 => some (.wrDout6 v)
  | 0x13C#9 => some (.wrDout7 v)
  | _ => none

/-- An access at a width and an offset: R105 names what is no transaction of this block. -/
def decodeAccess (isWrite : Bool) (offset size : Nat) (v : Word) : Except DecodeError Instr :=
  if size ≠ 4 then .error .notWordWide
  else if offset % 4 ≠ 0 then .error .misaligned
  else if 0x3C < offset then .error .beyondWindow
  else
    match decodeTxn (txn isWrite offset) v with
    | some i => .ok i
    | none => .error .beyondWindow

/-- The instruction a request is, or why it is none. -/
def decode : Request → Except DecodeError Instr
  | .command c => .ok (commandInstr (decodeCommand c))
  | .read offset size => decodeAccess false offset size 0
  | .write offset size v => decodeAccess true offset size v

/-! ## The encoder -/

/-- The request an instruction is (R80, R81, R85). -/
def encode : Instr → Request
  | .reset => .command 0x00000001
  | .compress => .command 0x00000002
  | .digest => .command 0x00000003
  | .illegal rsv op => .command (rsv ++ op)
  | .rdCmd => .read 0x00 4
  | .wrCmd v => .write 0x00 4 v
  | .rdStatus => .read 0x04 4
  | .wrStatus v => .write 0x04 4 v
  | .rdSrcLo => .read 0x08 4
  | .wrSrcLo v => .write 0x08 4 v
  | .rdSrcHi => .read 0x0C 4
  | .wrSrcHi v => .write 0x0C 4 v
  | .rdLenLo => .read 0x10 4
  | .wrLenLo v => .write 0x10 4 v
  | .rdLenHi => .read 0x14 4
  | .wrLenHi v => .write 0x14 4 v
  | .rd0x18 => .read 0x18 4
  | .wr0x18 v => .write 0x18 4 v
  | .rd0x1C => .read 0x1C 4
  | .wr0x1C v => .write 0x1C 4 v
  | .rdDout0 => .read 0x20 4
  | .wrDout0 v => .write 0x20 4 v
  | .rdDout1 => .read 0x24 4
  | .wrDout1 v => .write 0x24 4 v
  | .rdDout2 => .read 0x28 4
  | .wrDout2 v => .write 0x28 4 v
  | .rdDout3 => .read 0x2C 4
  | .wrDout3 v => .write 0x2C 4 v
  | .rdDout4 => .read 0x30 4
  | .wrDout4 v => .write 0x30 4 v
  | .rdDout5 => .read 0x34 4
  | .wrDout5 v => .write 0x34 4 v
  | .rdDout6 => .read 0x38 4
  | .wrDout6 v => .write 0x38 4 v
  | .rdDout7 => .read 0x3C 4
  | .wrDout7 v => .write 0x3C 4 v

/-! ## The opcode table's numbering -/

/-- The request whose bits are `w` in the opcode table's numbering (log 2). A row of format C has 32 bits, the
command word. A row of format BUS has the 9-bit descriptor, 16 bits in whole bytes; a write's data word
follows as bits 47:16. Any bit of `w` that the format gives no meaning counts towards the offset, beyond the
window, so that it is refused (R85). -/
def tableRequest (nbits w : Nat) : Request :=
  if 16 < nbits && nbits ≤ 32 then .command (BitVec.ofNat 32 w)
  else if w / 256 % 2 = 1 then
    .write (w % 256 + w % 65536 / 512 * 256 + w / 2 ^ 48 * 256) 4 (BitVec.ofNat 32 (w / 65536))
  else .read (w % 256 + w / 512 * 256) 4

/-- The instruction the decoder reads from an instruction of the opcode table whose bits are `w`. -/
def decodeTableWord (nbits w : Nat) : Option Instr :=
  match decode (tableRequest nbits w) with
  | .ok i => some i
  | .error _ => none

end Sys2Proof
end

