-- ==== Sys2Proof/Config.lean ====
section
/-! DEFINITION. What the platform fixes and the free values: constants without a body, so that no proof can
see what they are. The open parameters `MemAdmit`, `REG_BASE` and `N_ENGINES` are plain data in `State`
(logs 7 and 13), so that a statement about every state holds for every choice of them. -/

namespace Sys2Proof

/-- What a byte of input memory that nothing has written reads as. The spec gives the input memory no
contents: it is the platform's (R60(b), R69). DESIGN CHOICE, unsafe: log 8. -/
def Config.unlistedByte : Byte := 0

/-- A 32-bit register the spec leaves unspecified: H after BUS_ERROR (R165, U2), H and DOUT after a hardware
reset in a run (R40, U1, U3). `draw` is the counter of `State`, `slot` tells the words of one draw apart.
A free value: logs 5 and 6. -/
opaque Config.freeWord (draw slot : Nat) : Word

/-- Which of the values a raced input byte held is the one a command uses (R72(b), U4): an index, taken
modulo the number of values held. A free value: log 9. -/
opaque Config.raceChoice (draw address : Nat) : Nat

end Sys2Proof
end

