-- ==== Sys2Proof/Machine/State.lean ====
section
/-! DEFINITION. The state of the machine as plain data: the engine instances, the input memory and the
platform's parameters, and what the host has asked and been answered; the reasons a step can stop; the state
after reset. -/

namespace Sys2Proof.Machine

/-- The engine mode: X86ASM's {uninitialized} and {ready} (R20). -/
inductive Mode where
  | uninit
  | ready
deriving DecidableEq, Repr

/-- The result codes of STATUS.ERR (R160). -/
inductive ErrCode where
  | ok
  | illegalCmd
  | notReady
  | inputTooLarge
  | addrOverflow
  | busError
deriving DecidableEq, Repr

/-- Eight 32-bit words: the HashState `H[0..7]` (R21), and the digest words `DOUT0..7` (R35). -/
structure HashState where
  h0 : Word
  h1 : Word
  h2 : Word
  h3 : Word
  h4 : Word
  h5 : Word
  h6 : Word
  h7 : Word
deriving DecidableEq, Repr

/-- One engine instance: everything 10_state.md gives it (R39, R40). -/
structure Engine where
  /-- STATUS.ERR, four bits (R32). -/
  err : BitVec 4
  /-- MODE (R20); STATUS.READY reads it (R30). -/
  mode : Mode
  /-- The HashState H, the running chaining value; no register maps it (R21, R23). -/
  hash : HashState
  /-- STATUS.DVALID (R31). -/
  dvalid : Bool
  /-- SRC[31:0] (R33). -/
  srcLo : Word
  /-- SRC[63:32] (R33). -/
  srcHi : Word
  /-- LEN[31:0] (R34). -/
  lenLo : Word
  /-- LEN[63:32] (R34). -/
  lenHi : Word
  /-- DOUT0..7 (R35). -/
  dout : HashState
deriving DecidableEq, Repr

/-- Whether reading a region of the platform's memory map has side effects (R68). -/
inductive RegionKind where
  | idempotent
  | sideEffecting
deriving DecidableEq, Repr

/-- A range of the input memory that the platform answers: `MemAdmit(a)` holds inside it (R61, R69). -/
structure Region where
  base : Nat
  size : Nat
  kind : RegionKind
deriving DecidableEq, Repr

/-- What reading a command's input range comes to (R61, R66, R68). -/
inductive InputRead where
  /-- Every byte was answered; the bytes, the one at SRC first. -/
  | bytes (b : List Byte)
  /-- Some byte of the range is not admitted. -/
  | busError
  /-- The range touches a region whose reads have side effects. -/
  | sideEffecting
deriving DecidableEq, Repr

/-- The input memory: (address, byte) pairs in the canonical form of `Memory.wf`. -/
abbrev Memory := List Host.Cell

/-- What an agent outside the engines does next (R13). -/
inductive HostEvent where
  /-- A host's request to the register window at bus address `base` (R85, R86). -/
  | request (base : Nat) (r : Request)
  /-- A write to the input memory that is visible to the engines' ports before the next transaction is
  issued (R72(a), R73). -/
  | memWrite (a : Addr) (b : Byte)
  /-- A write to the input memory that lands while the next transaction is in progress (R72(b)). -/
  | racingWrite (a : Addr) (b : Byte)
  /-- A platform reset of the block whose window is at `base` (R180). -/
  | hardReset (base : Nat)
deriving DecidableEq, Repr

/-- A stop with a fault. No instruction raises one: the block reports its errors in STATUS.ERR (R167). -/
inductive Fault where
  /-- Raised by `step` on a request or a reset for a bus address at which the platform has no register window:
  the spec gives no instance there (R80, R175). Safe: the model stops where a platform would answer in a way
  of its own (log 12). -/
  | noSuchWindow
deriving DecidableEq, Repr

/-- A refusal: no meaning for the request. -/
inductive Refusal where
  /-- Raised by an arm of `exec` without a meaning; no arm is one. Safe. -/
  | notModelled (mnemonic : String)
  /-- Raised by `step` on an access that is no transaction of the block: "A model refuses any such access"
  (R105, U7). Safe (log 11). -/
  | undefinedAccess (why : DecodeError)
  /-- Raised by COMPRESS and DIGEST when the input range touches a region whose reads have side effects: "A
  command over such a region is outside this spec, and a model refuses it" (R68, U6). Safe (log 10). -/
  | sideEffectingInput
deriving DecidableEq, Repr

structure State where
  /-- The counter that the free values of `Config` are drawn from. The model's own field. -/
  draws : Nat
  /-- The instance the last request addressed; `exec` runs on it. -/
  engine : Engine
  /-- The bus address of that instance's register window, `REG_BASE` (R6, R80). -/
  regBase : Nat
  /-- The platform's other instances, each with the bus address of its window (R39, R175). -/
  others : List (Nat × Engine)
  /-- The input memory, 2^64 bytes (R60(b)). -/
  mem : Memory
  /-- The platform's memory map: what its port answers, `MemAdmit` (R61, R68, R69). -/
  regions : List Region
  /-- Writes by other agents that land while the next transaction is in progress, oldest first (R72(b)). -/
  inFlight : List (Addr × Byte)
  /-- What the agents outside do from here on, the next one first (R13, R36). The model's own field. -/
  pending : List HostEvent
  /-- The words the reads have returned to the host, newest first (R101 to R104). The model's own field. -/
  returned : List Word
deriving DecidableEq, Repr

/-- Eight zero words: the value the model names for registers the spec leaves unspecified at reset. -/
def HashState.zero : HashState := ⟨0, 0, 0, 0, 0, 0, 0, 0⟩

/-- One instance right after reset (R40). H and DOUT are unspecified in the spec; their zero is the model's
DESIGN CHOICE, unsafe: logs 3 and 4. -/
def Engine.reset : Engine where
  mode := .uninit
  hash := HashState.zero
  dvalid := false
  err := 0
  srcLo := 0
  srcHi := 0
  lenLo := 0
  lenHi := 0
  dout := HashState.zero

/-- A memory map that answers every address of the input memory, without side effects. -/
def allAdmitted : List Region := [⟨0, 2 ^ 64, .idempotent⟩]

/-- The machine right after reset (R40, R180). The platform's open parameters have to have some value here:
one instance with its window at 0 and a memory map that answers everything, DESIGN CHOICEs of logs 7, 8 and
13. Nothing is pending: the block runs no code and waits (R182). -/
def State.reset : State where
  engine := Engine.reset
  regBase := 0
  others := []
  mem := []
  regions := allAdmitted
  inFlight := []
  pending := []
  returned := []
  draws := 0

end Sys2Proof.Machine
end

