-- ==== Sys2Proof/Machine/Flags.lean ====
section
/-! DEFINITION. The status flags (R38): the codes of ERR, READY as MODE shows it, and the STATUS word. -/

namespace Sys2Proof.Machine

/-- The 4-bit code of a result (R32, R160). -/
def ErrCode.code : ErrCode → BitVec 4
  | .ok => 0
  | .illegalCmd => 1
  | .notReady => 2
  | .inputTooLarge => 3
  | .addrOverflow => 4
  | .busError => 5

/-- STATUS.READY is 1 exactly when MODE = READY (R30). -/
def Engine.ready (e : Engine) : Bool :=
  match e.mode with
  | .uninit => false
  | .ready => true

/-- `zext_32( reg(ERR) << 4 | reg(DVALID) << 1 | (MODE == READY ? 1 : 0) )` (R29, R101). -/
def Engine.statusWord (e : Engine) : Word :=
  (e.err.setWidth 32 <<< 4) ||| ((BitVec.ofBool e.dvalid).setWidth 32 <<< 1)
    ||| (BitVec.ofBool e.ready).setWidth 32

end Sys2Proof.Machine
end

