-- ==== Sys2Proof/Machine/Operands.lean ====
section
/-! DEFINITION. The operand forms: SRC and LEN assembled from their halves (R84), the input range and its two
checks (R66, R140), the words of a HashState by index (R103). -/

namespace Sys2Proof.Machine

/-- `zext_64(hi) << 32 | zext_64(lo)` (R33, R34, R84). -/
def assemble64 (hi lo : Word) : BitVec 64 :=
  (hi.setWidth 64 <<< 32) ||| lo.setWidth 64

/-- SRC, the input-memory byte address of a command's input (R33, R84). -/
def Engine.src (e : Engine) : Addr := assemble64 e.srcHi e.srcLo

/-- LEN, the byte length L of DIGEST's input (R34, R84). -/
def Engine.len (e : Engine) : BitVec 64 := assemble64 e.lenHi e.lenLo

/-- The range of `n` bytes at SRC is not legal: `SRC + n > 2^64` as integers (R66, R164). -/
def Engine.rangeOverflows (e : Engine) (n : Nat) : Bool :=
  decide (2 ^ 64 < e.src.toNat + n)

/-- The bit count of LEN does not fit 64 bits: `LEN >= 2^61` (R140, R163). -/
def Engine.lengthTooLarge (e : Engine) : Bool :=
  decide (2 ^ 61 ≤ e.len.toNat)

/-- Word `i` of a HashState, `0 <= i <= 7` (R11, R21). -/
def HashState.word (h : HashState) : Fin 8 → Word
  | 0 => h.h0
  | 1 => h.h1
  | 2 => h.h2
  | 3 => h.h3
  | 4 => h.h4
  | 5 => h.h5
  | 6 => h.h6
  | 7 => h.h7

/-- The value of `DOUTi` (R35, R103). -/
def Engine.doutWord (e : Engine) (i : Fin 8) : Word := e.dout.word i

end Sys2Proof.Machine
end

