-- ==== Sys2Proof/Machine/Ops.lean ====
section
/-! DEFINITION. The named operations over the input memory, the registers and the platform, which every meaning
and `step` are written with. -/

namespace Sys2Proof.Machine

/-! ## Input memory -/

/-- The byte memory holds at `a`. -/
def Memory.read : Memory → Nat → Byte
  | [], _ => Config.unlistedByte
  | (k, v) :: m, a => if k = a then v else Memory.read m a

/-- Memory with the byte `b` at `a`, in canonical form. -/
def Memory.write : Memory → Nat → Byte → Memory
  | [], a, b => if b = Config.unlistedByte then [] else [(a, b)]
  | (k, v) :: m, a, b =>
    if a < k then (if b = Config.unlistedByte then (k, v) :: m else (a, b) :: (k, v) :: m)
    else if a = k then (if b = Config.unlistedByte then m else (a, b) :: m)
    else (k, v) :: Memory.write m a b

/-- Addresses strictly rising and below 2^64, every one at least `lo`, and no entry equal to what an unlisted
address reads as. -/
def Memory.wfFrom : Nat → Memory → Bool
  | _, [] => true
  | lo, (k, v) :: m =>
    decide (lo ≤ k) && decide (k < 2 ^ 64) && decide (v ≠ Config.unlistedByte) && Memory.wfFrom (k + 1) m

/-- The canonical form of the input memory. -/
def Memory.wf (m : Memory) : Bool := Memory.wfFrom 0 m

/-- The address lies in the region. -/
def Region.holds (r : Region) (a : Nat) : Bool :=
  decide (r.base ≤ a) && decide (a < r.base + r.size)

/-- `MemAdmit(a)`: the platform answers a read of address `a` (R6, R61). -/
def State.admits (s : State) (a : Nat) : Bool := s.regions.any (fun r => r.holds a)

/-- The `n` bytes at `a` touch the region. -/
def Region.meets (r : Region) (a n : Nat) : Bool :=
  decide (max r.base a < min (r.base + r.size) (a + n))

/-- The `n` bytes at `a` touch a region whose reads have side effects (R68, U6). -/
def State.sideEffects (s : State) (a n : Nat) : Bool :=
  s.regions.any (fun r => decide (r.kind = .sideEffecting) && r.meets a n)

/-- The values other agents write to `a` while the next transaction is in progress, oldest first (R72(b)). -/
def State.racing (s : State) (a : Nat) : List Byte :=
  s.inFlight.filterMap (fun w => if w.1.toNat = a then some w.2 else none)

/-- The values address `a` holds during the next transaction, the one from before it first (R72). -/
def State.heldValues (s : State) (a : Nat) : List Byte := s.mem.read a :: s.racing a

/-- The value a command uses for the input byte at `a` (R72): what memory holds when nobody writes it, else
a free choice among the values it held (log 9). -/
def State.inputByte (s : State) (a : Nat) : Byte :=
  match s.racing a with
  | [] => s.mem.read a
  | v :: vs =>
    (s.mem.read a :: v :: vs).getD (Config.raceChoice s.draws a % (vs.length + 2)) (s.mem.read a)

/-- `MemRead(a, 1)`, none for a bus error (R61). -/
def State.memRead (s : State) (a : Nat) : Option Byte :=
  if s.admits a then some (s.inputByte a) else none

/-- The bytes at `a`, `a + 1`, .. : the loops of R133 and R144 over `MemRead`, none when a read signals a bus
error. -/
def State.readBytes (s : State) : Nat → Nat → Option (List Byte)
  | _, 0 => some []
  | a, n + 1 =>
    match s.memRead a with
    | none => none
    | some b =>
      match s.readBytes (a + 1) n with
      | none => none
      | some bs => some (b :: bs)

/-- Reads the `n` bytes at SRC that a command's input range holds (R66). A range that touches a side-effecting
region has no meaning in the spec, whatever else it holds (R68, log 10). -/
def State.readInput (s : State) (n : Nat) : InputRead :=
  if s.sideEffects s.engine.src.toNat n then .sideEffecting
  else
    match s.readBytes s.engine.src.toNat n with
    | none => .busError
    | some b => .bytes b

/-- A write to the input memory by an agent outside the engines (R13(c)). -/
def State.writeByte (s : State) (a : Addr) (b : Byte) : State :=
  { s with mem := s.mem.write a.toNat b }

/-- A write that overlaps the next transaction is under way (R72(b)). -/
def State.startRacing (s : State) (a : Addr) (b : Byte) : State :=
  { s with inFlight := s.inFlight ++ [(a, b)] }

/-- The writes to memory, oldest first. -/
def Memory.writeAll (m : Memory) (ws : List (Addr × Byte)) : Memory :=
  ws.foldl (fun m w => m.write w.1.toNat w.2) m

/-- The transaction has ended: the writes that overlapped it have landed, in their order (log 24). -/
def State.landWrites (s : State) : State :=
  { s with mem := s.mem.writeAll s.inFlight, inFlight := [] }

/-! ## Registers -/

/-- The state with the addressed instance replaced. -/
def State.setEngine (s : State) (e : Engine) : State := { s with engine := e }

def Engine.setMode (e : Engine) (m : Mode) : Engine := { e with mode := m }
def Engine.setHash (e : Engine) (h : HashState) : Engine := { e with hash := h }
def Engine.setDvalid (e : Engine) (d : Bool) : Engine := { e with dvalid := d }
def Engine.setErr (e : Engine) (c : ErrCode) : Engine := { e with err := c.code }
def Engine.setSrcLo (e : Engine) (v : Word) : Engine := { e with srcLo := v }
def Engine.setSrcHi (e : Engine) (v : Word) : Engine := { e with srcHi := v }
def Engine.setLenLo (e : Engine) (v : Word) : Engine := { e with lenLo := v }
def Engine.setLenHi (e : Engine) (v : Word) : Engine := { e with lenHi := v }
def Engine.setDout (e : Engine) (h : HashState) : Engine := { e with dout := h }

/-- `reg(DVALID) <- d` of the addressed instance. -/
def State.setDvalid (s : State) (d : Bool) : State := s.setEngine (s.engine.setDvalid d)

/-- `reg(ERR) <- 0`, the command succeeded (R160). -/
def State.setOk (s : State) : State := s.setEngine (s.engine.setErr .ok)

/-- The value a read transaction returns to the host (R101 to R104). -/
def State.respond (s : State) (v : Word) : State := { s with returned := v :: s.returned }

/-- The free values of this draw are used up. -/
def State.nextDraw (s : State) : State := { s with draws := s.draws + 1 }

/-- Eight words nothing constrains: slots `slot` to `slot + 7` of a draw. -/
def freeHash (draw slot : Nat) : HashState :=
  ⟨Config.freeWord draw slot, Config.freeWord draw (slot + 1), Config.freeWord draw (slot + 2),
    Config.freeWord draw (slot + 3), Config.freeWord draw (slot + 4), Config.freeWord draw (slot + 5),
    Config.freeWord draw (slot + 6), Config.freeWord draw (slot + 7)⟩

/-! ## Errors -/

/-- `raise <Error>` (R11): the code in ERR, and for BUS_ERROR the mode UNINIT and an unspecified H (R161 to
R165). No trap follows and no other state is saved or changed (R167); there is no return from it (R169). -/
def State.raise (s : State) : ErrCode → State
  | .ok => s.setEngine (s.engine.setErr .ok)
  | .illegalCmd => s.setEngine (s.engine.setErr .illegalCmd)
  | .notReady => s.setEngine (s.engine.setErr .notReady)
  | .inputTooLarge => s.setEngine (s.engine.setErr .inputTooLarge)
  | .addrOverflow => s.setEngine (s.engine.setErr .addrOverflow)
  | .busError =>
    (s.setEngine (((s.engine.setErr .busError).setMode .uninit).setHash (freeHash s.draws 0))).nextDraw

/-- A DIGEST that ends in an error: DVALID is cleared as well (R31, R162 to R165). -/
def State.raiseDigest (s : State) (e : ErrCode) : State := (s.setDvalid false).raise e

/-! ## Instances and the platform -/

/-- The instance whose window is at `base`. -/
def findInstance (base : Nat) : List (Nat × Engine) → Option Engine
  | [] => none
  | (b, e) :: rest => if b = base then some e else findInstance base rest

/-- Every instance of the platform with the bus address of its window (R175). -/
def State.instances (s : State) : List (Nat × Engine) := (s.regBase, s.engine) :: s.others

/-- The instance whose window is at `base` (R80). -/
def State.engineAt (s : State) (base : Nat) : Option Engine := findInstance base s.instances

/-- The list with `out` in the place of the instance at `base`. -/
def putInstance (base : Nat) (out : Nat × Engine) : List (Nat × Engine) → List (Nat × Engine)
  | [] => []
  | (b, e) :: rest => if b = base then out :: rest else (b, e) :: putInstance base out rest

/-- The instance at `base` becomes the addressed one; none when the platform has no window there (R80). -/
def State.focus (s : State) (base : Nat) : Option State :=
  if s.regBase = base then some s
  else
    match findInstance base s.others with
    | none => none
    | some e =>
      some { s with engine := e, regBase := base, others := putInstance base (s.regBase, s.engine) s.others }

/-- A platform reset of the addressed block (R40, R180): H and DOUT become unspecified, free values (log 6). -/
def State.hardReset (s : State) : State :=
  (s.setEngine ((Engine.reset.setHash (freeHash s.draws 0)).setDout (freeHash s.draws 8))).nextDraw

/-- The next event is no longer pending. -/
def State.withPending (s : State) (evs : List HostEvent) : State := { s with pending := evs }

end Sys2Proof.Machine
end

