-- ==== Sys2Proof/Machine/Sha.lean ====
section
/-! DEFINITION. The compression function (R120 to R132): word functions, message schedule, rounds, add-back. -/

namespace Sys2Proof.Machine

/-! ## Word functions -/

/-- `rotr(x, n) = (x >> n) | (x << (32-n))` (R8). -/
def rotr (x : Word) (n : Nat) : Word := (x >>> n) ||| (x <<< (32 - n))

/-- σ0 (R120). -/
def smallSigma0 (x : Word) : Word := rotr x 7 ^^^ rotr x 18 ^^^ (x >>> 3)

/-- σ1 (R120). -/
def smallSigma1 (x : Word) : Word := rotr x 17 ^^^ rotr x 19 ^^^ (x >>> 10)

/-- Σ0 (R121). -/
def bigSigma0 (x : Word) : Word := rotr x 2 ^^^ rotr x 13 ^^^ rotr x 22

/-- Σ1 (R121). -/
def bigSigma1 (x : Word) : Word := rotr x 6 ^^^ rotr x 11 ^^^ rotr x 25

/-- Ch (R122). -/
def ch (e f g : Word) : Word := (e &&& f) ^^^ (~~~e &&& g)

/-- Maj (R122). -/
def maj (a b c : Word) : Word := (a &&& b) ^^^ (a &&& c) ^^^ (b &&& c)

/-! ## Message schedule -/

/-- Byte `i` of a byte string (R10). -/
def byteAt (b : List Byte) (i : Nat) : Byte := b.getD i 0

/-- `be32(B, i)`: the first byte is the most significant (R10, R62). -/
def be32 (b : List Byte) (i : Nat) : Word :=
  byteAt b i ++ byteAt b (i + 1) ++ byteAt b (i + 2) ++ byteAt b (i + 3)

/-- `W[t] = be32(B, 4t)` for `t = 0..15` (R127). -/
def messageWords (b : List Byte) : List Word := (List.range 16).map (fun t => be32 b (4 * t))

/-- `W[t]` from the words before it, the newest (`W[t-1]`) first (R128). -/
def nextScheduleWord (ws : List Word) : Word :=
  ws.getD 15 0 + smallSigma0 (ws.getD 14 0) + ws.getD 6 0 + smallSigma1 (ws.getD 1 0)

/-- `n` more words, newest first. -/
def extendSchedule : Nat → List Word → List Word
  | 0, ws => ws
  | n + 1, ws => extendSchedule n (nextScheduleWord ws :: ws)

/-- `W[0..63]` of a block (R127, R128). -/
def schedule (b : List Byte) : List Word := (extendSchedule 48 (messageWords b).reverse).reverse

/-! ## Rounds -/

/-- The working set of the rounds (R129); none of it survives a command (R26). -/
structure WorkingSet where
  a : Word
  b : Word
  c : Word
  d : Word
  e : Word
  f : Word
  g : Word
  h : Word
deriving DecidableEq, Repr

/-- The working set starts as a copy of H (R130). -/
def HashState.toWorkingSet (h : HashState) : WorkingSet :=
  ⟨h.h0, h.h1, h.h2, h.h3, h.h4, h.h5, h.h6, h.h7⟩

/-- T1 of a round with the constant `k` and the schedule word `w` (R129). -/
def WorkingSet.t1 (v : WorkingSet) (k w : Word) : Word := v.h + bigSigma1 v.e + ch v.e v.f v.g + k + w

/-- T2 of a round (R129). -/
def WorkingSet.t2 (v : WorkingSet) : Word := bigSigma0 v.a + maj v.a v.b v.c

/-- One round (R129). -/
def WorkingSet.round (v : WorkingSet) (k w : Word) : WorkingSet :=
  ⟨v.t1 k w + v.t2, v.a, v.b, v.c, v.d + v.t1 k w, v.e, v.f, v.g⟩

/-- The rounds over a list of (K[t], W[t]), in order (R130). -/
def WorkingSet.rounds (v : WorkingSet) (kws : List (Word × Word)) : WorkingSet :=
  kws.foldl (fun v kw => v.round kw.1 kw.2) v

/-- The working set after the 64 rounds of a block (R130). -/
def finalWorkingSet (h : HashState) (b : List Byte) : WorkingSet :=
  h.toWorkingSet.rounds (roundConstants.zip (schedule b))

/-- The add-back (R131). -/
def addBack (h : HashState) (v : WorkingSet) : HashState :=
  ⟨h.h0 + v.a, h.h1 + v.b, h.h2 + v.c, h.h3 + v.d, h.h4 + v.e, h.h5 + v.f, h.h6 + v.g, h.h7 + v.h⟩

/-- `Compress(Hin, B)` (R132). -/
def compress (h : HashState) (b : List Byte) : HashState := addBack h (finalWorkingSet h b)

end Sys2Proof.Machine
end

