-- ==== Sys2Proof/Machine/Pad.lean ====
section
/-! DEFINITION. Padding, the sequence of blocks and the serialization of a digest (R141 to R146). -/

namespace Sys2Proof.Machine

/-- `be64bytes(v)`: `v[63:56]` first and `v[7:0]` last (R10). -/
def be64bytes (v : Nat) : List Byte := (List.range 8).map (fun j => BitVec.ofNat 8 (v / 2 ^ (56 - 8 * j)))

/-- `z = (55 - r) mod 64` with `r = L mod 64`, the number of zero bytes of the padding (R141). -/
def padZeros (len : Nat) : Nat := (64 + 55 - len % 64) % 64

/-- `Pad(D) = D ++ [0x80] ++ zeros(z) ++ be64bytes(L * 8)` (R141). -/
def pad (d : List Byte) : List Byte :=
  d ++ [0x80] ++ List.replicate (padZeros d.length) 0 ++ be64bytes (d.length * 8)

/-- The 64-byte blocks `P[64k .. 64k+63]`, `k = 0 .. |P|/64 - 1` (R144, R145). -/
def blocks (p : List Byte) : List (List Byte) :=
  (List.range (p.length / 64)).map (fun k => (p.drop (64 * k)).take 64)

/-- The chaining value after the blocks, in increasing order, from `h` (R145). -/
def compressBlocks (h : HashState) (bs : List (List Byte)) : HashState := bs.foldl compress h

/-- The final chaining value of a DIGEST of the bytes `d` from the chaining value `h` (R144). -/
def digestFrom (h : HashState) (d : List Byte) : HashState := compressBlocks h (blocks (pad d))

/-- The digest words of a message hashed from the initial constants (R150). -/
def sha256 (d : List Byte) : HashState := digestFrom initialHash d

/-- `be32bytes(w)` (R10). -/
def be32bytes (w : Word) : List Byte :=
  [w.extractLsb' 24 8, w.extractLsb' 16 8, w.extractLsb' 8 8, w.extractLsb' 0 8]

/-- The 32-byte digest, words in order and big-endian (R64, R146). -/
def HashState.bytes (h : HashState) : List Byte :=
  be32bytes h.h0 ++ be32bytes h.h1 ++ be32bytes h.h2 ++ be32bytes h.h3 ++
    be32bytes h.h4 ++ be32bytes h.h5 ++ be32bytes h.h6 ++ be32bytes h.h7

end Sys2Proof.Machine
end

