-- ==== Sys2Proof/Machine/Commands.lean ====
section
/-! DEFINITION. The meanings of the commands (format C) and of the access to CMD that runs them. -/

namespace Sys2Proof.Machine

/-- RESET (R110): H <- IV, MODE <- READY, ERR <- 0, in every mode; it reads neither SRC nor LEN. -/
def execReset (s : State) : Host.Outcome State Fault Refusal :=
  .next (s.setEngine (((s.engine.setHash initialHash).setMode .ready).setErr .ok))

/-- A successful COMPRESS of the block `b` (R133). -/
def State.finishCompress (s : State) (b : List Byte) : State :=
  (s.setEngine ((s.engine.setHash (compress s.engine.hash b)).setErr .ok)).nextDraw

/-- COMPRESS (R133): the checks in the order of R166, then one compression of the 64 bytes at SRC. -/
def execCompress (s : State) : Host.Outcome State Fault Refusal :=
  if s.engine.ready = false then .next (s.raise .notReady)
  else if s.engine.rangeOverflows 64 then .next (s.raise .addrOverflow)
  else
    match s.readInput 64 with
    | .sideEffecting => .refused .sideEffectingInput
    | .busError => .next (s.raise .busError)
    | .bytes b => .next (s.finishCompress b)

/-- A successful DIGEST of the bytes `d`: H keeps the final chaining value, DOUT takes it (R144, R146). -/
def State.finishDigest (s : State) (d : List Byte) : State :=
  (s.setEngine
    ((((s.engine.setHash (digestFrom s.engine.hash d)).setDout (digestFrom s.engine.hash d)).setDvalid
      true).setErr .ok)).nextDraw

/-- DIGEST (R144): the checks in the order of R166, then the padded input's blocks from the current H. -/
def execDigest (s : State) : Host.Outcome State Fault Refusal :=
  if s.engine.ready = false then .next (s.raiseDigest .notReady)
  else if s.engine.lengthTooLarge then .next (s.raiseDigest .inputTooLarge)
  else if s.engine.rangeOverflows s.engine.len.toNat then .next (s.raiseDigest .addrOverflow)
  else
    match s.readInput s.engine.len.toNat with
    | .sideEffecting => .refused .sideEffectingInput
    | .busError => .next (s.raiseDigest .busError)
    | .bytes d => .next (s.finishDigest d)

/-- ILLEGAL (R161): ERR <- 1 and nothing else, in either mode, whatever RSV and OP hold. -/
def execIllegal (_rsv : BitVec 28) (_op : BitVec 4) (s : State) : Host.Outcome State Fault Refusal :=
  .next (s.raise .illegalCmd)

/-- `WR CMD, c` (R100): the command that `c` decodes to. -/
def execWrCmd (c : Word) (s : State) : Host.Outcome State Fault Refusal :=
  match decodeCommand c with
  | .reset => execReset s
  | .compress => execCompress s
  | .digest => execDigest s
  | .illegal rsv op => execIllegal rsv op s

/-- `RD CMD` (R28, R100): CMD holds nothing and reads 0. -/
def execRdCmd (s : State) : Host.Outcome State Fault Refusal := .next (s.respond 0)

end Sys2Proof.Machine
end

