-- ==== Sys2Proof/Machine/Registers.lean ====
section
/-! DEFINITION. The meanings of the other window accesses (R101 to R104). A read returns its value and changes
nothing in the block (R68); a write to a read-only or unmapped slot has no effect (D23). -/

namespace Sys2Proof.Machine

/-- `RD STATUS` (R101): reading does not clear ERR (R169). -/
def execRdStatus (s : State) : Host.Outcome State Fault Refusal := .next (s.respond s.engine.statusWord)

/-- `WR STATUS, v` (R101): no effect. -/
def execWrStatus (_v : Word) (s : State) : Host.Outcome State Fault Refusal := .next s

/-- `RD SRC_LO` (R102). -/
def execRdSrcLo (s : State) : Host.Outcome State Fault Refusal := .next (s.respond s.engine.srcLo)

/-- `WR SRC_LO, v` (R102): any value is stored; no check. -/
def execWrSrcLo (v : Word) (s : State) : Host.Outcome State Fault Refusal :=
  .next (s.setEngine (s.engine.setSrcLo v))

/-- `RD SRC_HI` (R102). -/
def execRdSrcHi (s : State) : Host.Outcome State Fault Refusal := .next (s.respond s.engine.srcHi)

/-- `WR SRC_HI, v` (R102): any value is stored; no check. -/
def execWrSrcHi (v : Word) (s : State) : Host.Outcome State Fault Refusal :=
  .next (s.setEngine (s.engine.setSrcHi v))

/-- `RD LEN_LO` (R102). -/
def execRdLenLo (s : State) : Host.Outcome State Fault Refusal := .next (s.respond s.engine.lenLo)

/-- `WR LEN_LO, v` (R102): any value is stored; no check. -/
def execWrLenLo (v : Word) (s : State) : Host.Outcome State Fault Refusal :=
  .next (s.setEngine (s.engine.setLenLo v))

/-- `RD LEN_HI` (R102). -/
def execRdLenHi (s : State) : Host.Outcome State Fault Refusal := .next (s.respond s.engine.lenHi)

/-- `WR LEN_HI, v` (R102): any value is stored; no check. -/
def execWrLenHi (v : Word) (s : State) : Host.Outcome State Fault Refusal :=
  .next (s.setEngine (s.engine.setLenHi v))

/-- `RD 0x18`, unmapped: reads 0 (R104). -/
def execRd0x18 (s : State) : Host.Outcome State Fault Refusal := .next (s.respond 0)

/-- `WR 0x18, v`, unmapped: no effect (R104). -/
def execWr0x18 (_v : Word) (s : State) : Host.Outcome State Fault Refusal := .next s

/-- `RD 0x1C`, unmapped: reads 0 (R104). -/
def execRd0x1C (s : State) : Host.Outcome State Fault Refusal := .next (s.respond 0)

/-- `WR 0x1C, v`, unmapped: no effect (R104). -/
def execWr0x1C (_v : Word) (s : State) : Host.Outcome State Fault Refusal := .next s

/-- `RD DOUT0` (R103). -/
def execRdDout0 (s : State) : Host.Outcome State Fault Refusal := .next (s.respond (s.engine.doutWord 0))

/-- `WR DOUT0, v`: no effect (R103). -/
def execWrDout0 (_v : Word) (s : State) : Host.Outcome State Fault Refusal := .next s

/-- `RD DOUT1` (R103). -/
def execRdDout1 (s : State) : Host.Outcome State Fault Refusal := .next (s.respond (s.engine.doutWord 1))

/-- `WR DOUT1, v`: no effect (R103). -/
def execWrDout1 (_v : Word) (s : State) : Host.Outcome State Fault Refusal := .next s

/-- `RD DOUT2` (R103). -/
def execRdDout2 (s : State) : Host.Outcome State Fault Refusal := .next (s.respond (s.engine.doutWord 2))

/-- `WR DOUT2, v`: no effect (R103). -/
def execWrDout2 (_v : Word) (s : State) : Host.Outcome State Fault Refusal := .next s

/-- `RD DOUT3` (R103). -/
def execRdDout3 (s : State) : Host.Outcome State Fault Refusal := .next (s.respond (s.engine.doutWord 3))

/-- `WR DOUT3, v`: no effect (R103). -/
def execWrDout3 (_v : Word) (s : State) : Host.Outcome State Fault Refusal := .next s

/-- `RD DOUT4` (R103). -/
def execRdDout4 (s : State) : Host.Outcome State Fault Refusal := .next (s.respond (s.engine.doutWord 4))

/-- `WR DOUT4, v`: no effect (R103). -/
def execWrDout4 (_v : Word) (s : State) : Host.Outcome State Fault Refusal := .next s

/-- `RD DOUT5` (R103). -/
def execRdDout5 (s : State) : Host.Outcome State Fault Refusal := .next (s.respond (s.engine.doutWord 5))

/-- `WR DOUT5, v`: no effect (R103). -/
def execWrDout5 (_v : Word) (s : State) : Host.Outcome State Fault Refusal := .next s

/-- `RD DOUT6` (R103). -/
def execRdDout6 (s : State) : Host.Outcome State Fault Refusal := .next (s.respond (s.engine.doutWord 6))

/-- `WR DOUT6, v`: no effect (R103). -/
def execWrDout6 (_v : Word) (s : State) : Host.Outcome State Fault Refusal := .next s

/-- `RD DOUT7` (R103). -/
def execRdDout7 (s : State) : Host.Outcome State Fault Refusal := .next (s.respond (s.engine.doutWord 7))

/-- `WR DOUT7, v`: no effect (R103). -/
def execWrDout7 (_v : Word) (s : State) : Host.Outcome State Fault Refusal := .next s

end Sys2Proof.Machine
end

