-- ==== Sys2Proof/Machine/Dispatch.lean ====
section
/-! DEFINITION. From each instruction to its meaning: one arm per constructor. -/

namespace Sys2Proof.Machine

def exec (i : Instr) (s : State) : Host.Outcome State Fault Refusal :=
  match i with
  -- command words (format C)
  | .reset => Sys2Proof.Machine.execReset s
  | .compress => Sys2Proof.Machine.execCompress s
  | .digest => Sys2Proof.Machine.execDigest s
  | .illegal rsv op => Sys2Proof.Machine.execIllegal rsv op s
  -- window transactions (format BUS)
  | .rdCmd => Sys2Proof.Machine.execRdCmd s
  | .wrCmd v => Sys2Proof.Machine.execWrCmd v s
  | .rdStatus => Sys2Proof.Machine.execRdStatus s
  | .wrStatus v => Sys2Proof.Machine.execWrStatus v s
  | .rdSrcLo => Sys2Proof.Machine.execRdSrcLo s
  | .wrSrcLo v => Sys2Proof.Machine.execWrSrcLo v s
  | .rdSrcHi => Sys2Proof.Machine.execRdSrcHi s
  | .wrSrcHi v => Sys2Proof.Machine.execWrSrcHi v s
  | .rdLenLo => Sys2Proof.Machine.execRdLenLo s
  | .wrLenLo v => Sys2Proof.Machine.execWrLenLo v s
  | .rdLenHi => Sys2Proof.Machine.execRdLenHi s
  | .wrLenHi v => Sys2Proof.Machine.execWrLenHi v s
  | .rd0x18 => Sys2Proof.Machine.execRd0x18 s
  | .wr0x18 v => Sys2Proof.Machine.execWr0x18 v s
  | .rd0x1C => Sys2Proof.Machine.execRd0x1C s
  | .wr0x1C v => Sys2Proof.Machine.execWr0x1C v s
  | .rdDout0 => Sys2Proof.Machine.execRdDout0 s
  | .wrDout0 v => Sys2Proof.Machine.execWrDout0 v s
  | .rdDout1 => Sys2Proof.Machine.execRdDout1 s
  | .wrDout1 v => Sys2Proof.Machine.execWrDout1 v s
  | .rdDout2 => Sys2Proof.Machine.execRdDout2 s
  | .wrDout2 v => Sys2Proof.Machine.execWrDout2 v s
  | .rdDout3 => Sys2Proof.Machine.execRdDout3 s
  | .wrDout3 v => Sys2Proof.Machine.execWrDout3 v s
  | .rdDout4 => Sys2Proof.Machine.execRdDout4 s
  | .wrDout4 v => Sys2Proof.Machine.execWrDout4 v s
  | .rdDout5 => Sys2Proof.Machine.execRdDout5 s
  | .wrDout5 v => Sys2Proof.Machine.execWrDout5 v s
  | .rdDout6 => Sys2Proof.Machine.execRdDout6 s
  | .wrDout6 v => Sys2Proof.Machine.execWrDout6 v s
  | .rdDout7 => Sys2Proof.Machine.execRdDout7 s
  | .wrDout7 v => Sys2Proof.Machine.execWrDout7 v s

end Sys2Proof.Machine
end

