-- ==== Sys2Proof/Machine/Step.lean ====
section
/-! DEFINITION. One step: the next event of the agents outside the engines (R13). The block fetches nothing
(R36); its instructions are the requests of the queue, and with none pending it holds its state (R177, R182). -/

namespace Sys2Proof.Machine

/-- What the step of a request adds around `exec`: the writes that overlapped the transaction land. -/
def afterExec : Host.Outcome State Fault Refusal → Host.Outcome State Fault Refusal
  | .next t => .next t.landWrites
  | .fault r => .fault r
  | .refused r => .refused r

/-- A request to the addressed window. -/
def stepRequest (r : Request) (s : State) : Host.Outcome State Fault Refusal :=
  match decode r with
  | .error e => .refused (.undefinedAccess e)
  | .ok i => afterExec (exec i s)

/-- One event, with the state it finds (the event itself no longer pending). -/
def stepEvent (ev : HostEvent) (s : State) : Host.Outcome State Fault Refusal :=
  match ev with
  | .request base r =>
    match s.focus base with
    | none => .fault .noSuchWindow
    | some t => stepRequest r t
  | .memWrite a b => .next (s.writeByte a b)
  | .racingWrite a b => .next (s.startRacing a b)
  | .hardReset base =>
    match s.focus base with
    | none => .fault .noSuchWindow
    | some t => .next t.hardReset

def step (s : State) : Host.Outcome State Fault Refusal :=
  match s.pending with
  | [] => .next s
  | ev :: rest => stepEvent ev (s.withPending rest)

/-- The instruction whose bits are `w` in the opcode table's numbering, as the next request to the addressed
window: the place the block takes its instructions from (log 1). -/
def State.withFetchWord (s : State) (nbits w : Nat) : State :=
  s.withPending (.request s.regBase (tableRequest nbits w) :: s.pending)

end Sys2Proof.Machine
end

