-- ==== Sys2Proof/Machine/Pseudo.lean ====
section
/-! DEFINITION. The pseudo-instructions of R87, as their exact expansions, and the sequence of instructions
one host issues to one window. -/

namespace Sys2Proof.Machine

/-- `SETSRC a`. -/
def setSrc (a : Addr) : List Instr := [.wrSrcLo (a.extractLsb' 0 32), .wrSrcHi (a.extractLsb' 32 32)]

/-- `SETLEN n`. -/
def setLen (n : BitVec 64) : List Instr := [.wrLenLo (n.extractLsb' 0 32), .wrLenHi (n.extractLsb' 32 32)]

/-- `CHECK`. -/
def checkStatus : List Instr := [.rdStatus]

/-- `READDIGEST`. -/
def readDigest : List Instr :=
  [.rdDout0, .rdDout1, .rdDout2, .rdDout3, .rdDout4, .rdDout5, .rdDout6, .rdDout7]

/-- `SHA256 a, n`. -/
def hashMessage (a : Addr) (n : BitVec 64) : List Instr :=
  setSrc a ++ setLen n ++ [.reset, .digest] ++ checkStatus ++ readDigest

/-- `COMPRESSAT a`. -/
def compressAt (a : Addr) : List Instr := setSrc a ++ [.compress] ++ checkStatus

/-- Instructions one after another, stopping at the first that stops. -/
def execAll : List Instr → State → Host.Outcome State Fault Refusal
  | [], s => .next s
  | i :: is, s =>
    match exec i s with
    | .next t => execAll is t
    | .fault r => .fault r
    | .refused r => .refused r

end Sys2Proof.Machine
end

