-- ==== Sys2Proof/Safety.lean ====
section
/-! DEFINITION. What counts as a legal state of the machine, in the terms the statements use. -/

namespace Sys2Proof.Machine

/-- What the spec says of ERR beside MODE in every instance: only the codes of R160 are ever written (R32);
after NOT_READY and BUS_ERROR the mode is UNINIT (R162, R165), after INPUT_TOO_LARGE and ADDR_OVERFLOW it is
READY, since those are checked after the mode (R166). -/
def Engine.legal (e : Engine) : Prop :=
  e.err.toNat ≤ 5 ∧
  (e.err = ErrCode.code .notReady ∨ e.err = ErrCode.code .busError → e.mode = .uninit) ∧
  (e.err = ErrCode.code .inputTooLarge ∨ e.err = ErrCode.code .addrOverflow → e.mode = .ready)

/-- Every instance is legal, no two windows share an address (R175), and the input memory is canonical. -/
def State.Legal (s : State) : Prop :=
  s.mem.wf = true ∧ (s.instances.map Prod.fst).Nodup ∧ ∀ p ∈ s.instances, p.2.legal

/-- Two instances differ at most in an H that MODE = UNINIT hides (R21, U1). -/
def Engine.sameButHiddenHash (e f : Engine) : Prop :=
  e = f ∨ (e.mode = .uninit ∧ f = e.setHash f.hash)

/-- Two lists of instances agree window by window but for hidden values of H. -/
def sameInstances : List (Nat × Engine) → List (Nat × Engine) → Prop
  | [], [] => True
  | (b, e) :: r, (c, f) :: q => b = c ∧ e.sameButHiddenHash f ∧ sameInstances r q
  | [], _ :: _ => False
  | _ :: _, [] => False

/-- Two states agree but for values of H that MODE = UNINIT hides. -/
def State.sameButHiddenHash (s t : State) : Prop :=
  s.engine.sameButHiddenHash t.engine ∧ sameInstances s.others t.others ∧
  t.regBase = s.regBase ∧ t.mem = s.mem ∧ t.regions = s.regions ∧ t.inFlight = s.inFlight ∧
  t.pending = s.pending ∧ t.returned = s.returned ∧ t.draws = s.draws

/-- Two outcomes agree but for hidden values of H: the same stop, or next states that agree. -/
def sameOutcome : Host.Outcome State Fault Refusal → Host.Outcome State Fault Refusal → Prop
  | .next s, .next t => s.sameButHiddenHash t
  | .fault a, .fault b => a = b
  | .refused a, .refused b => a = b
  | _, _ => False

/-- The `n` bytes memory holds from address `a` on, the one at `a` first. -/
def memBytes (m : Memory) (a n : Nat) : List Byte := (List.range n).map (fun i => m.read (a + i))

/-- The `n` bytes at SRC are all admitted and touch no side-effecting region: the premise R61 and R68 put on a
command that runs over them. -/
def State.inputReadable (s : State) (n : Nat) : Prop :=
  s.sideEffects s.engine.src.toNat n = false ∧ ∀ i < n, s.admits (s.engine.src.toNat + i) = true

/-- No agent writes a byte of the `n` bytes at SRC during the next transaction (R72(a), R185). -/
def State.inputStable (s : State) (n : Nat) : Prop :=
  ∀ i < n, s.racing (s.engine.src.toNat + i) = []

/-- The working set before round `t`, from R129 and R130 read as a recursion over the rounds. -/
def workingSetBefore (h : HashState) (b : List Byte) : Nat → WorkingSet
  | 0 => ⟨h.h0, h.h1, h.h2, h.h3, h.h4, h.h5, h.h6, h.h7⟩
  | t + 1 =>
    let v := workingSetBefore h b t
    let t1 := v.h + bigSigma1 v.e + ch v.e v.f v.g + roundConstants.getD t 0 + (schedule b).getD t 0
    let t2 := bigSigma0 v.a + maj v.a v.b v.c
    ⟨t1 + t2, v.a, v.b, v.c, v.d + t1, v.e, v.f, v.g⟩

/-- The command an instruction runs, if it runs one: a command word, or the access to CMD that carries it
(R86, R100). -/
def commandOf : Instr → Option Command
  | .reset => some .reset
  | .compress => some .compress
  | .digest => some .digest
  | .illegal rsv op => some (.illegal rsv op)
  | .rdCmd => none
  | .wrCmd c => some (decodeCommand c)
  | .rdStatus => none
  | .wrStatus _ => none
  | .rdSrcLo => none
  | .wrSrcLo _ => none
  | .rdSrcHi => none
  | .wrSrcHi _ => none
  | .rdLenLo => none
  | .wrLenLo _ => none
  | .rdLenHi => none
  | .wrLenHi _ => none
  | .rd0x18 => none
  | .wr0x18 _ => none
  | .rd0x1C => none
  | .wr0x1C _ => none
  | .rdDout0 => none
  | .wrDout0 _ => none
  | .rdDout1 => none
  | .wrDout1 _ => none
  | .rdDout2 => none
  | .wrDout2 _ => none
  | .rdDout3 => none
  | .wrDout3 _ => none
  | .rdDout4 => none
  | .wrDout4 _ => none
  | .rdDout5 => none
  | .wrDout5 _ => none
  | .rdDout6 => none
  | .wrDout6 _ => none
  | .rdDout7 => none
  | .wrDout7 _ => none

/-- The instruction is a read transaction (R85). -/
def isRead : Instr → Bool
  | .reset => false
  | .compress => false
  | .digest => false
  | .illegal _ _ => false
  | .rdCmd => true
  | .wrCmd _ => false
  | .rdStatus => true
  | .wrStatus _ => false
  | .rdSrcLo => true
  | .wrSrcLo _ => false
  | .rdSrcHi => true
  | .wrSrcHi _ => false
  | .rdLenLo => true
  | .wrLenLo _ => false
  | .rdLenHi => true
  | .wrLenHi _ => false
  | .rd0x18 => true
  | .wr0x18 _ => false
  | .rd0x1C => true
  | .wr0x1C _ => false
  | .rdDout0 => true
  | .wrDout0 _ => false
  | .rdDout1 => true
  | .wrDout1 _ => false
  | .rdDout2 => true
  | .wrDout2 _ => false
  | .rdDout3 => true
  | .wrDout3 _ => false
  | .rdDout4 => true
  | .wrDout4 _ => false
  | .rdDout5 => true
  | .wrDout5 _ => false
  | .rdDout6 => true
  | .wrDout6 _ => false
  | .rdDout7 => true
  | .wrDout7 _ => false

end Sys2Proof.Machine
end

