-- ==== Sys2Proof/Certificates/Slice0/Obligations.lean ====
section
/-! DEFINITION. The statements for the provers, from the spec's numbered rules. Each docstring names the rule a
statement formalises; where a clause rests on the model's own choice it names the log entry. -/

open Sys2Proof Sys2Proof.Machine

/-! ## Encoding -/

/-- R88: the worked encodings of command words. -/
def Obligations.WorkedCommandWordsDecode : Prop :=
  decode (.command 0x00000001) = .ok .reset ∧
  decode (.command 0x00000002) = .ok .compress ∧
  decode (.command 0x00000003) = .ok .digest ∧
  decode (.command 0x00000000) = .ok (.illegal 0 0) ∧
  decode (.command 0x00000004) = .ok (.illegal 0 4) ∧
  decode (.command 0x0000000F) = .ok (.illegal 0 15) ∧
  decode (.command 0x00000011) = .ok (.illegal 1 1) ∧
  decode (.command 0x80000003) = .ok (.illegal 0x8000000 3) ∧
  decode (.command 0xFFFFFFFF) = .ok (.illegal 0xFFFFFFF 15)

/-- R85 and the transaction listings of 95_test_vectors.md: TXN descriptors, as the opcode table numbers their
bits; the place of a write's data word above the descriptor is the model's (log 2). -/
def Obligations.TransactionDescriptorsDecode : Prop :=
  decodeTableWord 16 0x100 = some (.wrCmd 0) ∧
  decodeTableWord 16 0x000 = some .rdCmd ∧
  decodeTableWord 16 0x004 = some .rdStatus ∧
  decodeTableWord 16 0x104 = some (.wrStatus 0) ∧
  decodeTableWord 48 0x000010000108 = some (.wrSrcLo 0x1000) ∧
  decodeTableWord 48 0x200000000114 = some (.wrLenHi 0x20000000) ∧
  decodeTableWord 16 0x01C = some .rd0x1C ∧
  decodeTableWord 16 0x020 = some .rdDout0 ∧
  decodeTableWord 16 0x03C = some .rdDout7 ∧
  decodeTableWord 16 0x13C = some (.wrDout7 0) ∧
  decodeTableWord 16 0x002 = none ∧
  decodeTableWord 16 0x040 = none

/-- R80 to R85: every well-formed instruction is what its own encoding decodes to. -/
def Obligations.DecodeOfEncode : Prop :=
  ∀ i : Instr, wellFormed i = true → decode (encode i) = .ok i

/-- R83, R85: what decodes at all is the encoding of the instruction it decodes to, which is well formed; so
no two requests have one meaning and every ILLEGAL keeps its RSV and OP. -/
def Obligations.EncodeOfDecode : Prop :=
  ∀ (r : Request) (i : Instr), decode r = .ok i → encode i = r ∧ wellFormed i = true

/-- R81, R85, R105: every command word decodes; a window access decodes exactly when it is 32 bits wide, at a
multiple of 4 and not beyond 0x3C. -/
def Obligations.TransactionsAreTheAlignedWordAccesses : Prop :=
  (∀ c : Word, ∃ i, decode (.command c) = .ok i) ∧
  (∀ offset size : Nat, (∃ i, decode (.read offset size) = .ok i) ↔
    (size = 4 ∧ offset % 4 = 0 ∧ offset ≤ 0x3C)) ∧
  (∀ (offset size : Nat) (v : Word), (∃ i, decode (.write offset size v) = .ok i) ↔
    (size = 4 ∧ offset % 4 = 0 ∧ offset ≤ 0x3C))

/-- R105, U7: an access that is no transaction of the block is refused by name. -/
def Obligations.UndefinedWindowAccessesAreRefused : Prop :=
  ∀ (s : State) (base offset size : Nat) (v : Word) (rest : List HostEvent),
    (s.engineAt base).isSome →
    (size ≠ 4 ∨ offset % 4 ≠ 0 ∨ 0x3C < offset) →
    (s.pending = .request base (.read offset size) :: rest ∨
      s.pending = .request base (.write offset size v) :: rest) →
    ∃ why, step s = .refused (.undefinedAccess why)

/-- R80, R13: a request for a bus address without a window stops the model (the fault is the model's: log 12). -/
def Obligations.RequestsOutsideEveryWindowFault : Prop :=
  ∀ (s : State) (base : Nat) (r : Request) (rest : List HostEvent),
    s.engineAt base = none → s.pending = .request base r :: rest → step s = .fault .noSuchWindow

/-! ## Steps -/

/-- R12, R13, R71, R106: the next request to a window, once it decodes to `i`, is `exec i` on the addressed
instance, in one step; the writes that overlapped it land after it (log 24). -/
def Obligations.StepRunsTheDecodedInstruction : Prop :=
  ∀ (s t : State) (base : Nat) (r : Request) (rest : List HostEvent) (i : Instr),
    s.pending = .request base r :: rest →
    (s.withPending rest).focus base = some t →
    decode r = .ok i →
    (∀ u, exec i t = .next u → step s = .next u.landWrites) ∧
    (∀ q, exec i t = .refused q → step s = .refused q) ∧
    (base = s.regBase → t = s.withPending rest) ∧
    some t.engine = s.engineAt base ∧ t.regBase = base

/-- R177: with nothing pending the block is idle and holds its state. -/
def Obligations.IdleBlockHoldsItsState : Prop :=
  ∀ s : State, s.pending = [] → step s = .next s

/-- R13(c), R72(a): a write by another agent that completes between transactions changes that byte of the
input memory, no other byte and no engine. -/
def Obligations.OutsideWriteChangesOneByte : Prop :=
  ∀ (s : State) (a : Addr) (b : Byte) (rest : List HostEvent),
    s.mem.wf = true → s.pending = .memWrite a b :: rest →
    ∃ m, step s = .next { s with pending := rest, mem := m } ∧ m.wf = true ∧
      m.read a.toNat = b ∧ ∀ c, c ≠ a.toNat → m.read c = s.mem.read c

/-- R72(b): a write that overlaps a transaction has landed when the transaction ends; the last of several to
one byte is what the byte holds then (the moment is the model's: log 24). -/
def Obligations.RacingWritesLandAfterTheTransaction : Prop :=
  ∀ (s t : State) (base : Nat) (r : Request) (rest : List HostEvent),
    s.mem.wf = true → s.pending = .request base r :: rest → step s = .next t →
    t.inFlight = [] ∧ t.mem.wf = true ∧
    ∀ a : Addr, t.mem.read a.toNat = (s.racing a.toNat).getLastD (s.mem.read a.toNat)

/-- R40, R180, U12: a platform reset leaves MODE UNINIT, STATUS 0, SRC and LEN 0; H and DOUT are unspecified
(free values: log 6). That nothing outside the block changes (the other instances, the memory, the memory map, the
writes in flight, what has been returned) is the model's own choice: log 21. -/
def Obligations.HardwareResetEvent : Prop :=
  ∀ (s t : State) (base : Nat) (rest : List HostEvent),
    s.pending = .hardReset base :: rest →
    (s.withPending rest).focus base = some t →
    ∃ e : Engine, step s = .next { t with engine := e, draws := s.draws + 1 } ∧
      e.mode = .uninit ∧ e.dvalid = false ∧ e.err = 0 ∧ e.statusWord = 0 ∧
      e.srcLo = 0 ∧ e.srcHi = 0 ∧ e.lenLo = 0 ∧ e.lenHi = 0

/-- R40: the values the spec gives for reset (H and DOUT are unspecified there, so nothing is said of them). The
last clause, that no event is pending, is the model's own choice about its own field: log 1. -/
def Obligations.ResetStateValues : Prop :=
  State.reset.engine.mode = .uninit ∧ State.reset.engine.dvalid = false ∧ State.reset.engine.err = 0 ∧
  State.reset.engine.srcLo = 0 ∧ State.reset.engine.srcHi = 0 ∧
  State.reset.engine.lenLo = 0 ∧ State.reset.engine.lenHi = 0 ∧
  State.reset.engine.statusWord = 0 ∧ State.reset.pending = []

/-! ## Window accesses -/

/-- R28: CMD holds nothing. A write starts the command its word decodes to; a read returns 0. -/
def Obligations.CmdSlotStartsCommandsAndReadsZero : Prop :=
  (∀ (s : State) (c : Word), exec (.wrCmd c) s = exec (commandInstr (decodeCommand c)) s) ∧
  (∀ s : State, exec .rdCmd s = .next { s with returned := 0 :: s.returned })

/-- R29: STATUS is assembled from MODE, DVALID and ERR, with zeros elsewhere; writes to it are ignored; it
reads 0 after reset. -/
def Obligations.StatusIsAssembledAndNotWritable : Prop :=
  (∀ s : State, ∃ v : Word,
    exec .rdStatus s = .next { s with returned := v :: s.returned } ∧
    (v.getLsbD 0 = true ↔ s.engine.mode = .ready) ∧
    v.getLsbD 1 = s.engine.dvalid ∧
    v.extractLsb' 2 2 = 0 ∧
    v.extractLsb' 4 4 = s.engine.err ∧
    v.extractLsb' 8 24 = 0) ∧
  (∀ (s : State) (v : Word), exec (.wrStatus v) s = .next s) ∧
  State.reset.engine.statusWord = 0

/-- R102: SRC and LEN halves store any word unchecked and read back; nothing else changes; the transactions are
those of their offsets. -/
def Obligations.SrcAndLenHalvesStoreAndReadBack : Prop :=
  ∀ (s : State) (v : Word),
    exec (.wrSrcLo v) s = .next { s with engine := { s.engine with srcLo := v } } ∧
    exec (.wrSrcHi v) s = .next { s with engine := { s.engine with srcHi := v } } ∧
    exec (.wrLenLo v) s = .next { s with engine := { s.engine with lenLo := v } } ∧
    exec (.wrLenHi v) s = .next { s with engine := { s.engine with lenHi := v } } ∧
    exec .rdSrcLo s = .next { s with returned := s.engine.srcLo :: s.returned } ∧
    exec .rdSrcHi s = .next { s with returned := s.engine.srcHi :: s.returned } ∧
    exec .rdLenLo s = .next { s with returned := s.engine.lenLo :: s.returned } ∧
    exec .rdLenHi s = .next { s with returned := s.engine.lenHi :: s.returned } ∧
    decode (.write 0x08 4 v) = .ok (.wrSrcLo v) ∧ decode (.write 0x0C 4 v) = .ok (.wrSrcHi v) ∧
    decode (.write 0x10 4 v) = .ok (.wrLenLo v) ∧ decode (.write 0x14 4 v) = .ok (.wrLenHi v) ∧
    decode (.read 0x08 4) = .ok .rdSrcLo ∧ decode (.read 0x0C 4) = .ok .rdSrcHi ∧
    decode (.read 0x10 4) = .ok .rdLenLo ∧ decode (.read 0x14 4) = .ok .rdLenHi

/-- R103: DOUT0..7 read their word and ignore writes. -/
def Obligations.DoutReadsItsWordAndIgnoresWrites : Prop :=
  ∀ (s : State) (v : Word),
    exec .rdDout0 s = .next { s with returned := s.engine.dout.h0 :: s.returned } ∧
    exec .rdDout1 s = .next { s with returned := s.engine.dout.h1 :: s.returned } ∧
    exec .rdDout2 s = .next { s with returned := s.engine.dout.h2 :: s.returned } ∧
    exec .rdDout3 s = .next { s with returned := s.engine.dout.h3 :: s.returned } ∧
    exec .rdDout4 s = .next { s with returned := s.engine.dout.h4 :: s.returned } ∧
    exec .rdDout5 s = .next { s with returned := s.engine.dout.h5 :: s.returned } ∧
    exec .rdDout6 s = .next { s with returned := s.engine.dout.h6 :: s.returned } ∧
    exec .rdDout7 s = .next { s with returned := s.engine.dout.h7 :: s.returned } ∧
    exec (.wrDout0 v) s = .next s ∧ exec (.wrDout1 v) s = .next s ∧
    exec (.wrDout2 v) s = .next s ∧ exec (.wrDout3 v) s = .next s ∧
    exec (.wrDout4 v) s = .next s ∧ exec (.wrDout5 v) s = .next s ∧
    exec (.wrDout6 v) s = .next s ∧ exec (.wrDout7 v) s = .next s

/-- R104: the unmapped slots read 0 and ignore writes; their descriptors decode to these transactions. -/
def Obligations.UnmappedSlotsReadZeroAndIgnoreWrites : Prop :=
  ∀ (s : State) (v : Word),
    exec .rd0x18 s = .next { s with returned := 0 :: s.returned } ∧
    exec .rd0x1C s = .next { s with returned := 0 :: s.returned } ∧
    exec (.wr0x18 v) s = .next s ∧ exec (.wr0x1C v) s = .next s ∧
    decode (.read 0x18 4) = .ok .rd0x18 ∧ decode (.read 0x1C 4) = .ok .rd0x1C ∧
    decode (.write 0x18 4 v) = .ok (.wr0x18 v) ∧ decode (.write 0x1C 4 v) = .ok (.wr0x1C v)

/-- R68: a read transaction changes nothing but what it returns to the host. -/
def Obligations.ReadTransactionsHaveNoSideEffects : Prop :=
  ∀ (i : Instr) (s : State), isRead i = true →
    ∃ v, exec i s = .next { s with returned := v :: s.returned }

/-! ## Commands -/

/-- R110, R111: RESET, spelled either way, loads IV whatever the state, and twice is once. -/
def Obligations.ResetLoadsTheInitialHash : Prop :=
  (∀ s : State,
    exec .reset s = .next { s with engine :=
      { s.engine with hash := initialHash, mode := .ready, err := 0 } } ∧
    exec (.wrCmd 0x00000001) s = exec .reset s) ∧
  (∀ s t : State, exec .reset s = .next t → exec .reset t = .next t)

/-- R161: an illegal command word changes ERR and nothing else, in either mode. -/
def Obligations.IllegalCommandChangesOnlyErr : Prop :=
  (∀ (s : State) (c : Word), c ≠ 1 → c ≠ 2 → c ≠ 3 →
    exec (.wrCmd c) s = .next { s with engine := { s.engine with err := 1 } }) ∧
  (∀ (s : State) (rsv : BitVec 28) (op : BitVec 4),
    exec (.illegal rsv op) s = .next { s with engine := { s.engine with err := 1 } })

/-- R162: COMPRESS and DIGEST in UNINIT. -/
def Obligations.NotReadyBeforeReset : Prop :=
  ∀ s : State, s.engine.mode = .uninit →
    exec .compress s = .next { s with engine := { s.engine with err := 2 } } ∧
    exec .digest s = .next { s with engine := { s.engine with err := 2, dvalid := false } }

/-- R163: a LEN whose bit count does not fit; COMPRESS never reports it. -/
def Obligations.InputTooLargeBeforeAnyRead : Prop :=
  (∀ s : State, s.engine.mode = .ready → 2 ^ 61 ≤ s.engine.len.toNat →
    exec .digest s = .next { s with engine := { s.engine with err := 3, dvalid := false } }) ∧
  (∀ s t : State, exec .compress s = .next t → t.engine.err ≠ 3)

/-- R164: a range past the top of the address space; never for an empty input. -/
def Obligations.AddrOverflowBeforeAnyRead : Prop :=
  (∀ s : State, s.engine.mode = .ready → 2 ^ 64 < s.engine.src.toNat + 64 →
    exec .compress s = .next { s with engine := { s.engine with err := 4 } }) ∧
  (∀ s : State, s.engine.mode = .ready → s.engine.len.toNat < 2 ^ 61 →
    2 ^ 64 < s.engine.src.toNat + s.engine.len.toNat →
    exec .digest s = .next { s with engine := { s.engine with err := 4, dvalid := false } }) ∧
  (∀ s t : State, s.engine.len = 0 → exec .digest s = .next t → t.engine.err ≠ 4)

/-- R165: a byte the platform does not answer. H is left unspecified (some `h`), and neither COMPRESS nor
DIGEST runs before the next RESET. (R68's side-effecting regions are excluded: log 10.) -/
def Obligations.BusErrorLeavesTheEngineUninit : Prop :=
  (∀ s : State, s.engine.mode = .ready → s.engine.src.toNat + 64 ≤ 2 ^ 64 →
    s.sideEffects s.engine.src.toNat 64 = false →
    (∃ i < 64, s.admits (s.engine.src.toNat + i) = false) →
    ∃ h t, exec .compress s = .next t ∧
      t = { s with
        engine := { s.engine with err := 5, mode := .uninit, hash := h }, draws := s.draws + 1 } ∧
      exec .compress t = .next { t with engine := { t.engine with err := 2 } } ∧
      exec .digest t = .next { t with engine := { t.engine with err := 2, dvalid := false } }) ∧
  (∀ s : State, s.engine.mode = .ready → s.engine.len.toNat < 2 ^ 61 →
    s.engine.src.toNat + s.engine.len.toNat ≤ 2 ^ 64 →
    s.sideEffects s.engine.src.toNat s.engine.len.toNat = false →
    (∃ i < s.engine.len.toNat, s.admits (s.engine.src.toNat + i) = false) →
    ∃ h t, exec .digest s = .next t ∧
      t = { s with
        engine := { s.engine with err := 5, dvalid := false, mode := .uninit, hash := h },
        draws := s.draws + 1 } ∧
      exec .compress t = .next { t with engine := { t.engine with err := 2 } } ∧
      exec .digest t = .next { t with engine := { t.engine with err := 2, dvalid := false } })

/-- R166: of several conditions only the first is reported, with only its effects: after the codes 1 to 4
nothing but ERR, and DVALID for DIGEST, has changed. -/
def Obligations.FirstErrorInPriorityOrderIsReported : Prop :=
  (∀ (s t : State) (c : Word), c ≠ 1 → c ≠ 2 → c ≠ 3 → exec (.wrCmd c) s = .next t → t.engine.err = 1) ∧
  (∀ s t : State, exec .compress s = .next t →
    (s.engine.mode = .uninit → t.engine.err = 2) ∧
    (s.engine.mode = .ready → 2 ^ 64 < s.engine.src.toNat + 64 → t.engine.err = 4) ∧
    (s.engine.mode = .ready → s.engine.src.toNat + 64 ≤ 2 ^ 64 →
      ((∃ i < 64, s.admits (s.engine.src.toNat + i) = false) → t.engine.err = 5) ∧
      ((∀ i < 64, s.admits (s.engine.src.toNat + i) = true) → t.engine.err = 0)) ∧
    (t.engine.err = 2 ∨ t.engine.err = 4 →
      t = { s with engine := { s.engine with err := t.engine.err } })) ∧
  (∀ s t : State, exec .digest s = .next t →
    (s.engine.mode = .uninit → t.engine.err = 2) ∧
    (s.engine.mode = .ready → 2 ^ 61 ≤ s.engine.len.toNat → t.engine.err = 3) ∧
    (s.engine.mode = .ready → s.engine.len.toNat < 2 ^ 61 →
      2 ^ 64 < s.engine.src.toNat + s.engine.len.toNat → t.engine.err = 4) ∧
    (s.engine.mode = .ready → s.engine.len.toNat < 2 ^ 61 →
      s.engine.src.toNat + s.engine.len.toNat ≤ 2 ^ 64 →
      ((∃ i < s.engine.len.toNat, s.admits (s.engine.src.toNat + i) = false) → t.engine.err = 5) ∧
      ((∀ i < s.engine.len.toNat, s.admits (s.engine.src.toNat + i) = true) → t.engine.err = 0)) ∧
    (t.engine.err = 2 ∨ t.engine.err = 3 ∨ t.engine.err = 4 →
      t = { s with engine := { s.engine with err := t.engine.err, dvalid := false } }))

/-- R133: COMPRESS over admitted bytes that nobody writes meanwhile compresses the 64 bytes at SRC into H and
changes nothing else of the block, in either spelling. -/
def Obligations.CompressUpdatesHashFromMemory : Prop :=
  ∀ s : State, s.engine.mode = .ready → s.engine.src.toNat + 64 ≤ 2 ^ 64 →
    s.inputReadable 64 → s.inputStable 64 →
    exec .compress s = .next { s with
      engine := { s.engine with
        hash := compress s.engine.hash (memBytes s.mem s.engine.src.toNat 64), err := 0 },
      draws := s.draws + 1 } ∧
    exec (.wrCmd 0x00000002) s = exec .compress s

/-- R144: DIGEST over admitted bytes that nobody writes meanwhile pads the LEN bytes at SRC, compresses the
blocks from the current H, leaves the last chaining value in H and in DOUT, and sets DVALID. -/
def Obligations.DigestHashesMemoryFromCurrentHash : Prop :=
  ∀ s : State, s.engine.mode = .ready → s.engine.len.toNat < 2 ^ 61 →
    s.engine.src.toNat + s.engine.len.toNat ≤ 2 ^ 64 →
    s.inputReadable s.engine.len.toNat → s.inputStable s.engine.len.toNat →
    exec .digest s = .next { s with
      engine := { s.engine with
        hash := digestFrom s.engine.hash (memBytes s.mem s.engine.src.toNat s.engine.len.toNat),
        dout := digestFrom s.engine.hash (memBytes s.mem s.engine.src.toNat s.engine.len.toNat),
        dvalid := true, err := 0 },
      draws := s.draws + 1 } ∧
    exec (.wrCmd 0x00000003) s = exec .digest s

/-- R66, R144: an empty DIGEST reads no memory: it completes whatever SRC is and whatever the platform answers,
and compresses the one block of the empty message. -/
def Obligations.EmptyDigestReadsNothing : Prop :=
  ∀ s : State, s.engine.mode = .ready → s.engine.len = 0 →
    exec .digest s = .next { s with
      engine := { s.engine with
        hash := compress s.engine.hash (0x80 :: List.replicate 63 0),
        dout := compress s.engine.hash (0x80 :: List.replicate 63 0),
        dvalid := true, err := 0 },
      draws := s.draws + 1 }

/-- R72: COMPRESS and DIGEST complete on raced input too; each input byte is one of the values it held during
the command, one value per address. -/
def Obligations.RacedInputBytesAreValuesHeld : Prop :=
  (∀ s : State, s.engine.mode = .ready → s.engine.src.toNat + 64 ≤ 2 ^ 64 → s.inputReadable 64 →
    ∃ b : List Byte, b.length = 64 ∧
      (∀ i < 64, byteAt b i ∈ s.heldValues (s.engine.src.toNat + i)) ∧
      exec .compress s = .next { s with
        engine := { s.engine with hash := compress s.engine.hash b, err := 0 },
        draws := s.draws + 1 }) ∧
  (∀ s : State, s.engine.mode = .ready → s.engine.len.toNat < 2 ^ 61 →
    s.engine.src.toNat + s.engine.len.toNat ≤ 2 ^ 64 → s.inputReadable s.engine.len.toNat →
    ∃ d : List Byte, d.length = s.engine.len.toNat ∧
      (∀ i < s.engine.len.toNat, byteAt d i ∈ s.heldValues (s.engine.src.toNat + i)) ∧
      exec .digest s = .next { s with
        engine := { s.engine with
          hash := digestFrom s.engine.hash d, dout := digestFrom s.engine.hash d,
          dvalid := true, err := 0 },
        draws := s.draws + 1 })

/-- R68, U6: a command that would read a region whose reads have side effects is refused by name. -/
def Obligations.SideEffectingInputIsRefused : Prop :=
  (∀ (s : State) (r : Region) (i : Nat), s.engine.mode = .ready → s.engine.src.toNat + 64 ≤ 2 ^ 64 →
    r ∈ s.regions → r.kind = .sideEffecting → i < 64 → r.holds (s.engine.src.toNat + i) = true →
    exec .compress s = .refused .sideEffectingInput) ∧
  (∀ (s : State) (r : Region) (i : Nat), s.engine.mode = .ready → s.engine.len.toNat < 2 ^ 61 →
    s.engine.src.toNat + s.engine.len.toNat ≤ 2 ^ 64 →
    r ∈ s.regions → r.kind = .sideEffecting → i < s.engine.len.toNat →
    r.holds (s.engine.src.toNat + i) = true →
    exec .digest s = .refused .sideEffectingInput)

/-- R34: COMPRESS does not read LEN. Both runs read the same draw counter, so values the spec leaves open agree too,
which is the model's choice: logs 5 and 9. -/
def Obligations.CompressDoesNotReadLen : Prop :=
  ∀ (s t : State) (lo hi : Word), exec .compress s = .next t →
    exec .compress { s with engine := { s.engine with lenLo := lo, lenHi := hi } } =
      .next { t with engine := { t.engine with lenLo := lo, lenHi := hi } }

/-- R147: for a fixed H and fixed input bytes DIGEST gives the same DOUT and the same H, wherever the bytes
lie and whatever else the states hold. -/
def Obligations.DigestIsDeterministic : Prop :=
  ∀ s t u v : State,
    s.engine.hash = t.engine.hash → s.engine.len = t.engine.len →
    s.inputStable s.engine.len.toNat → t.inputStable t.engine.len.toNat →
    memBytes s.mem s.engine.src.toNat s.engine.len.toNat =
      memBytes t.mem t.engine.src.toNat t.engine.len.toNat →
    exec .digest s = .next u → exec .digest t = .next v →
    u.engine.err = 0 → v.engine.err = 0 →
    u.engine.dout = v.engine.dout ∧ u.engine.hash = v.engine.hash

/-! ## The compression function and padding -/

/-- R8, R122: `rotr` is a rotation to the right, bit `i` of the result being bit `(i + n) mod 32` of `x`; Ch takes
f where e is 1 and g where e is 0; Maj takes the value at least two inputs hold. -/
def Obligations.WordFunctionsBitByBit : Prop :=
  (∀ (x : Word) (n i : Nat), 0 < n → n < 32 → i < 32 → (rotr x n).getLsbD i = x.getLsbD ((i + n) % 32)) ∧
  (∀ (x y z : Word) (i : Nat), i < 32 →
    (ch x y z).getLsbD i = (if x.getLsbD i then y.getLsbD i else z.getLsbD i) ∧
    (maj x y z).getLsbD i = decide
      (2 ≤ (x.getLsbD i).toNat + (y.getLsbD i).toNat + (z.getLsbD i).toNat))

/-- R62, R127: word `t` of a block is big-endian: byte 4t is bits 31:24, byte 4t+3 is bits 7:0. -/
def Obligations.MessageWordsAreBigEndian : Prop :=
  ∀ (b : List Byte) (t : Nat), t < 16 →
    (schedule b).getD t 0 = be32 b (4 * t) ∧
    ((schedule b).getD t 0).extractLsb' 24 8 = byteAt b (4 * t) ∧
    ((schedule b).getD t 0).extractLsb' 16 8 = byteAt b (4 * t + 1) ∧
    ((schedule b).getD t 0).extractLsb' 8 8 = byteAt b (4 * t + 2) ∧
    ((schedule b).getD t 0).extractLsb' 0 8 = byteAt b (4 * t + 3)

/-- R128: the schedule has 64 words and `W[t] = W[t-16] + σ0(W[t-15]) + W[t-7] + σ1(W[t-2])` for t = 16..63. -/
def Obligations.ScheduleSatisfiesItsRecurrence : Prop :=
  ∀ b : List Byte, (schedule b).length = 64 ∧
    ∀ t, 16 ≤ t → t < 64 →
      (schedule b).getD t 0 = (schedule b).getD (t - 16) 0 + smallSigma0 ((schedule b).getD (t - 15) 0) +
        (schedule b).getD (t - 7) 0 + smallSigma1 ((schedule b).getD (t - 2) 0)

/-- R129 to R132: the 64 rounds in order, each with its own constant and schedule word, then the add-back. -/
def Obligations.CompressIsSixtyFourRoundsAndAddBack : Prop :=
  ∀ (h : HashState) (b : List Byte),
    compress h b =
      ⟨h.h0 + (workingSetBefore h b 64).a, h.h1 + (workingSetBefore h b 64).b,
        h.h2 + (workingSetBefore h b 64).c, h.h3 + (workingSetBefore h b 64).d,
        h.h4 + (workingSetBefore h b 64).e, h.h5 + (workingSetBefore h b 64).f,
        h.h6 + (workingSetBefore h b 64).g, h.h7 + (workingSetBefore h b 64).h⟩

/-- R24, R25: K holds the first 32 bits of the fractional parts of the cube roots of the first 64 primes, IV
those of the square roots of the first 8 (the spec marks these as general knowledge: log 18). -/
def Obligations.RomTablesAreRootsOfPrimes : Prop :=
  roundConstants.length = 64 ∧
  (∀ t < 64, ∃ c : Nat, c ^ 3 ≤ Nat.nth Nat.Prime t * 2 ^ 96 ∧
    Nat.nth Nat.Prime t * 2 ^ 96 < (c + 1) ^ 3 ∧ (roundConstants.getD t 0).toNat = c % 2 ^ 32) ∧
  (∀ i : Fin 8, ∃ c : Nat, c ^ 2 ≤ Nat.nth Nat.Prime i * 2 ^ 64 ∧
    Nat.nth Nat.Prime i * 2 ^ 64 < (c + 1) ^ 2 ∧ (initialHash.word i).toNat = c % 2 ^ 32)

/-- R141: the padded string is the data, 0x80, the least number of zero bytes that fills the last block, and
the bit length in the last 8 bytes, big-endian. -/
def Obligations.PaddingMeetsItsInvariant : Prop :=
  ∀ d : List Byte, d.length ≤ 2 ^ 61 - 1 →
    (pad d).length % 64 = 0 ∧
    (pad d).length = d.length + 1 + padZeros d.length + 8 ∧
    padZeros d.length ≤ 63 ∧
    (∀ z, (d.length + 1 + z + 8) % 64 = 0 → padZeros d.length ≤ z) ∧
    (pad d).take d.length = d ∧
    byteAt (pad d) d.length = 0x80 ∧
    (∀ i, d.length < i → i < (pad d).length - 8 → byteAt (pad d) i = 0) ∧
    (∀ j < 8, byteAt (pad d) ((pad d).length - 8 + j) =
      (BitVec.ofNat 64 (d.length * 8)).extractLsb' (56 - 8 * j) 8) ∧
    (BitVec.ofNat 64 (d.length * 8)).toNat = d.length * 8

/-- R142: the padding produces exactly `ceil((L+9)/64)` blocks: one more than the full chunks of the input when
`L mod 64 <= 55`, two more otherwise. -/
def Obligations.PaddingBlockCount : Prop :=
  ∀ d : List Byte,
    (blocks (pad d)).length = (pad d).length / 64 ∧
    (pad d).length / 64 = (d.length + 9 + 63) / 64 ∧
    (pad d).length / 64 = d.length / 64 + (if d.length % 64 ≤ 55 then 1 else 2) ∧
    ∀ b ∈ blocks (pad d), b.length = 64

/-- R143: the full chunks of the input come first, unchanged; then one final block when `L mod 64 <= 55`, two
otherwise. -/
def Obligations.FinalBlocksByCase : Prop :=
  ∀ d : List Byte,
    let f := d.length / 64
    let r := d.length % 64
    let tail := d.drop (64 * f)
    let chunks := (List.range f).map (fun k => (d.drop (64 * k)).take 64)
    (r ≤ 55 → blocks (pad d) =
      chunks ++ [tail ++ [0x80] ++ List.replicate (55 - r) 0 ++ be64bytes (8 * d.length)]) ∧
    (56 ≤ r → blocks (pad d) =
      chunks ++ [tail ++ [0x80] ++ List.replicate (63 - r) 0,
        List.replicate 56 0 ++ be64bytes (8 * d.length)])

/-- R141: two messages of legal length with one padded form are one message, so a digest is of the message
and not of a family of them. -/
def Obligations.PaddingIsInjective : Prop :=
  ∀ d e : List Byte, d.length ≤ 2 ^ 61 - 1 → e.length ≤ 2 ^ 61 - 1 → pad d = pad e → d = e

/-- R64, R146: digest byte `4i + j` is bits `31-8j : 24-8j` of word `i`. -/
def Obligations.DigestBytesAreBigEndian : Prop :=
  ∀ (h : HashState), h.bytes.length = 32 ∧
    ∀ (i : Fin 8) (j : Nat), j < 4 →
      byteAt h.bytes (4 * i + j) = (h.word i).extractLsb' (24 - 8 * j) 8

/-! ## What no instruction breaks -/

/-- R167: no instruction traps; each answers a next state, but for COMPRESS and DIGEST over a region whose
reads have side effects, in the mode READY (R68). -/
def Obligations.EveryInstructionAnswersOrIsRefusedByName : Prop :=
  ∀ (i : Instr) (s : State),
    (∃ t, exec i s = .next t) ∨
    (exec i s = .refused .sideEffectingInput ∧ s.engine.mode = .ready ∧
      ((commandOf i = some .compress ∧ s.sideEffects s.engine.src.toNat 64 = true) ∨
        (commandOf i = some .digest ∧
          s.sideEffects s.engine.src.toNat s.engine.len.toNat = true)))

/-- R20: who moves MODE, where it starts, and that STATUS.READY reads it. -/
def Obligations.OnlyResetAndBusErrorMoveTheMode : Prop :=
  (∀ (i : Instr) (s t : State), exec i s = .next t →
    (s.engine.mode = .uninit → t.engine.mode = .ready → commandOf i = some .reset) ∧
    (s.engine.mode = .ready → t.engine.mode = .uninit →
      t.engine.err = 5 ∧ (commandOf i = some .compress ∨ commandOf i = some .digest)) ∧
    (commandOf i = some .reset → t.engine.mode = .ready)) ∧
  State.reset.engine.mode = .uninit ∧
  (∀ s : State, ∃ v, exec .rdStatus s = .next { s with returned := v :: s.returned } ∧
    (v.getLsbD 0 = true ↔ s.engine.mode = .ready))

/-- R22: who writes H, and with what. -/
def Obligations.OnlyResetCompressionAndBusErrorWriteHash : Prop :=
  ∀ (i : Instr) (s t : State), exec i s = .next t → t.engine.hash ≠ s.engine.hash →
    (commandOf i = some .reset ∧ t.engine.hash = initialHash) ∨
    (commandOf i = some .compress ∧ t.engine.err = 0 ∧
      ∃ b, b.length = 64 ∧ t.engine.hash = compress s.engine.hash b) ∨
    (commandOf i = some .digest ∧ t.engine.err = 0 ∧
      ∃ d, d.length = s.engine.len.toNat ∧ t.engine.hash = compressBlocks s.engine.hash (blocks (pad d))) ∨
    ((commandOf i = some .compress ∨ commandOf i = some .digest) ∧
      t.engine.err = 5 ∧ t.engine.mode = .uninit)

/-- R31: who writes DVALID. -/
def Obligations.DvalidSaysTheLastDigestSucceeded : Prop :=
  (∀ (i : Instr) (s t : State), exec i s = .next t →
    (commandOf i = some .digest → (t.engine.dvalid = true ↔ t.engine.err = 0)) ∧
    (commandOf i ≠ some .digest → t.engine.dvalid = s.engine.dvalid)) ∧
  State.reset.engine.dvalid = false

/-- R32: every command overwrites ERR, whatever it held, with a code of R160; nothing else writes it. Both
runs read the same draw counter, so values the spec leaves open agree too, which is the model's choice: logs 5
and 9. -/
def Obligations.EveryCommandOverwritesErr : Prop :=
  (∀ (i : Instr) (s t : State), exec i s = .next t →
    (commandOf i ≠ none →
      t.engine.err ∈ [0#4, 1#4, 2#4, 3#4, 4#4, 5#4] ∧
      ∀ x, exec i { s with engine := { s.engine with err := x } } = .next t) ∧
    (commandOf i = none → t.engine.err = s.engine.err)) ∧
  State.reset.engine.err = 0

/-- R33, R34: only their own writes change SRC and LEN; the two halves make a 64-bit number. -/
def Obligations.OnlyTheirWritesChangeSrcAndLen : Prop :=
  (∀ (i : Instr) (s t : State), exec i s = .next t →
    ((∀ v, i ≠ .wrSrcLo v) → t.engine.srcLo = s.engine.srcLo) ∧
    ((∀ v, i ≠ .wrSrcHi v) → t.engine.srcHi = s.engine.srcHi) ∧
    ((∀ v, i ≠ .wrLenLo v) → t.engine.lenLo = s.engine.lenLo) ∧
    ((∀ v, i ≠ .wrLenHi v) → t.engine.lenHi = s.engine.lenHi)) ∧
  (∀ e : Engine, e.src.toNat = e.srcHi.toNat * 2 ^ 32 + e.srcLo.toNat ∧
    e.len.toNat = e.lenHi.toNat * 2 ^ 32 + e.lenLo.toNat)

/-- R35: DOUT changes only in a successful DIGEST, which leaves H's final words in it. -/
def Obligations.OnlyASuccessfulDigestWritesDout : Prop :=
  ∀ (i : Instr) (s t : State), exec i s = .next t →
    (t.engine.dout ≠ s.engine.dout → commandOf i = some .digest ∧ t.engine.err = 0) ∧
    (commandOf i = some .digest → t.engine.err = 0 → t.engine.dout = t.engine.hash)

/-- R74, R39: no instruction writes the input memory, touches another instance, moves its own window or
changes what the platform answers; every byte reads as before. -/
def Obligations.NoInstructionWritesOutsideItsEngine : Prop :=
  ∀ (i : Instr) (s t : State), exec i s = .next t →
    (∀ a, t.mem.read a = s.mem.read a) ∧ t.mem = s.mem ∧ t.others = s.others ∧ t.regBase = s.regBase ∧
    t.regions = s.regions ∧ t.inFlight = s.inFlight ∧ t.pending = s.pending

/-- R39: a step leaves every instance alone but the one whose window it addresses or whose block it resets. -/
def Obligations.InstancesAreIsolated : Prop :=
  ∀ (s t : State) (ev : HostEvent) (rest : List HostEvent) (b : Nat),
    (s.instances.map Prod.fst).Nodup → s.pending = ev :: rest → step s = .next t →
    (∀ r, ev ≠ .request b r) → ev ≠ .hardReset b →
    t.engineAt b = s.engineAt b

/-- R32, R162, R163, R165, R166, R175: every step from a legal state answers, if at all, a legal state. -/
def Obligations.EveryStepKeepsTheStateLegal : Prop :=
  ∀ s t : State, s.Legal → step s = .next t → t.Legal

/-- R40: the reset state is legal. -/
def Obligations.ResetStateIsLegal : Prop := State.reset.Legal

/-- R21, U1, U2: while MODE = UNINIT the contents of H cannot be observed: machines that differ only in hidden
H values stay so, and give the host the same answers, over any number of steps. Both machines read the same draw
counter, so other values the spec leaves open agree too, which is the model's choice: those used of raced bytes
(log 9), and DOUT after a hardware reset (R35, R40), so that a read of it answers alike (log 6). -/
def Obligations.UninitHidesTheHash : Prop :=
  ∀ (k : Nat) (s t : State), s.sameButHiddenHash t →
    sameOutcome (Sys2Proof.core.run k s) (Sys2Proof.core.run k t)

/-- R110 (idempotence of reset): after `RESET; DIGEST` nothing of what the engine held before but SRC and LEN shows
in H, MODE, ERR or DVALID, nor in DOUT when the DIGEST succeeded. Both runs read the same draw counter, so that H
agrees after a BUS_ERROR, where R165 leaves it unspecified, is the model's choice (log 5), and so is that H and DOUT
agree when the input is raced, where R72(b) allows any held value (log 9). -/
def Obligations.ResetLeaksNothingIntoTheNextDigest : Prop :=
  ∀ (s t u : State) (e : Engine),
    e.src = s.engine.src → e.len = s.engine.len →
    execAll [.reset, .digest] s = .next t →
    execAll [.reset, .digest] (s.setEngine e) = .next u →
    t.engine.hash = u.engine.hash ∧ t.engine.mode = u.engine.mode ∧ t.engine.err = u.engine.err ∧
    t.engine.dvalid = u.engine.dvalid ∧ (t.engine.err = 0 → t.engine.dout = u.engine.dout)

/-! ## Sequences of instructions -/

/-- R87: SETSRC and SETLEN give SRC and LEN, in either order of their two writes, and change nothing else. -/
def Obligations.SetSrcAndSetLenInEitherOrder : Prop :=
  ∀ (s : State) (x : BitVec 64),
    (∃ t, execAll (setSrc x) s = .next t ∧ execAll (setSrc x).reverse s = .next t ∧ t.engine.src = x ∧
      t = { s with engine := { s.engine with srcLo := t.engine.srcLo, srcHi := t.engine.srcHi } }) ∧
    (∃ t, execAll (setLen x) s = .next t ∧ execAll (setLen x).reverse s = .next t ∧ t.engine.len = x ∧
      t = { s with engine := { s.engine with lenLo := t.engine.lenLo, lenHi := t.engine.lenHi } })

/-- R87, R150: the pseudo-instruction SHA256 over admitted, quiet memory returns STATUS = 3 and then the eight
words of the digest of the `n` bytes at `a`, from any state of the engine. -/
def Obligations.HashMessageReturnsTheDigest : Prop :=
  ∀ (s : State) (a : Addr) (n : BitVec 64),
    n.toNat < 2 ^ 61 → a.toNat + n.toNat ≤ 2 ^ 64 → s.sideEffects a.toNat n.toNat = false →
    (∀ i < n.toNat, s.admits (a.toNat + i) = true ∧ s.racing (a.toNat + i) = []) →
    ∃ t, execAll (hashMessage a n) s = .next t ∧
      t.returned =
        [(sha256 (memBytes s.mem a.toNat n.toNat)).h7, (sha256 (memBytes s.mem a.toNat n.toNat)).h6,
          (sha256 (memBytes s.mem a.toNat n.toNat)).h5, (sha256 (memBytes s.mem a.toNat n.toNat)).h4,
          (sha256 (memBytes s.mem a.toNat n.toNat)).h3, (sha256 (memBytes s.mem a.toNat n.toNat)).h2,
          (sha256 (memBytes s.mem a.toNat n.toNat)).h1, (sha256 (memBytes s.mem a.toNat n.toNat)).h0,
          3] ++ s.returned ∧
      t.engine.hash = sha256 (memBytes s.mem a.toNat n.toNat) ∧ t.engine.mode = .ready

/-- R151: blocks compressed before a DIGEST, and earlier DIGESTs, chain into it, and its length field counts
only its own bytes. -/
def Obligations.CommandsChainWithoutALengthCounter : Prop :=
  (∀ (s : State) (a b : Addr) (n : BitVec 64),
    a.toNat + 64 ≤ 2 ^ 64 → n.toNat < 2 ^ 61 → b.toNat + n.toNat ≤ 2 ^ 64 →
    s.inFlight = [] → s.sideEffects a.toNat 64 = false → s.sideEffects b.toNat n.toNat = false →
    (∀ i < 64, s.admits (a.toNat + i) = true) → (∀ i < n.toNat, s.admits (b.toNat + i) = true) →
    ∃ t, execAll ([.reset] ++ (setSrc a ++ ([.compress] ++ (setSrc b ++ (setLen n ++ [.digest]))))) s = .next t ∧
      t.engine.dout = compressBlocks (compress initialHash (memBytes s.mem a.toNat 64))
        (blocks (pad (memBytes s.mem b.toNat n.toNat)))) ∧
  (∀ (s : State),
    s.engine.len.toNat < 2 ^ 61 → s.engine.src.toNat + s.engine.len.toNat ≤ 2 ^ 64 →
    s.inFlight = [] → s.inputReadable s.engine.len.toNat →
    ∃ t, execAll [.reset, .digest, .digest] s = .next t ∧
      t.engine.dout =
        compressBlocks (sha256 (memBytes s.mem s.engine.src.toNat s.engine.len.toNat))
          (blocks (pad (memBytes s.mem s.engine.src.toNat s.engine.len.toNat))))

/-- R135: a host compresses N consecutive blocks with N COMPRESS commands, SRC advancing by 64: the chaining
value is that of the N blocks in order. -/
def Obligations.RepeatedCompressChainsConsecutiveBlocks : Prop :=
  ∀ (s : State) (a : Addr) (n : Nat),
    s.engine.mode = .ready → a.toNat + 64 * n ≤ 2 ^ 64 → s.inFlight = [] →
    s.sideEffects a.toNat (64 * n) = false → (∀ i < 64 * n, s.admits (a.toNat + i) = true) →
    ∃ t, execAll ((List.range n).flatMap (fun k => compressAt (a + BitVec.ofNat 64 (64 * k)))) s = .next t ∧
      t.engine.hash = compressBlocks s.engine.hash
        ((List.range n).map (fun k => memBytes s.mem (a.toNat + 64 * k) 64)) ∧
      t.engine.mode = .ready ∧ (0 < n → t.engine.err = 0) ∧ t.engine.dout = s.engine.dout ∧
      t.engine.dvalid = s.engine.dvalid ∧ t.mem = s.mem
end

