-- ==== Sys2Proof/Laws/Decode.lean ====
section
/-! SUPPORT. The fields of a command word, and which window accesses decode. -/

namespace Sys2Proof

theorem opField_append (rsv : BitVec 28) (op : BitVec 4) : opField (rsv ++ op) = op := by
  apply BitVec.eq_of_toNat_eq
  rw [opField, BitVec.extractLsb'_toNat, BitVec.toNat_append, ← Nat.shiftLeft_add_eq_or_of_lt op.isLt]
  simp only [Nat.shiftRight_eq_div_pow, Nat.shiftLeft_eq]
  omega

theorem rsvField_append (rsv : BitVec 28) (op : BitVec 4) : rsvField (rsv ++ op) = rsv := by
  apply BitVec.eq_of_toNat_eq
  rw [rsvField, BitVec.extractLsb'_toNat, BitVec.toNat_append, ← Nat.shiftLeft_add_eq_or_of_lt op.isLt]
  simp only [Nat.shiftRight_eq_div_pow, Nat.shiftLeft_eq]
  omega

/-- A command word is its two fields (R81). -/
theorem rsvField_append_opField (c : Word) : rsvField c ++ opField c = c := by
  apply BitVec.eq_of_toNat_eq
  simp only [rsvField, opField, BitVec.toNat_append, BitVec.extractLsb'_toNat]
  rw [← Nat.shiftLeft_add_eq_or_of_lt (by omega)]
  simp only [Nat.shiftRight_eq_div_pow, Nat.shiftLeft_eq]
  omega

/-- A word that is not RESET, COMPRESS or DIGEST decodes to ILLEGAL with its fields (R83). -/
theorem decodeCommand_illegal {c : Word} (h1 : c ≠ 1) (h2 : c ≠ 2) (h3 : c ≠ 3) :
    decodeCommand c = .illegal (rsvField c) (opField c) := by
  rw [decodeCommand, if_neg h1, if_neg h2, if_neg h3]

/-- The sixteen slots of the window (R80). -/
theorem slot_cases {offset : Nat} (h4 : offset % 4 = 0) (hw : offset ≤ 0x3C) :
    ∃ k : Fin 16, offset = 4 * k.val :=
  ⟨⟨offset / 4, by omega⟩, by simp only; omega⟩

/-- An access decodes exactly when it is an aligned word access inside the window (R85, R105). -/
theorem decodeAccess_ok_iff (isWrite : Bool) (offset size : Nat) (v : Word) :
    (∃ i, decodeAccess isWrite offset size v = .ok i) ↔
      size = 4 ∧ offset % 4 = 0 ∧ offset ≤ 0x3C := by
  unfold decodeAccess
  constructor
  · rintro ⟨i, h⟩
    split at h
    · cases h
    split at h
    · cases h
    split at h
    · cases h
    omega
  · rintro ⟨hs, h4, hw⟩
    rw [if_neg (by omega), if_neg (by omega), if_neg (by omega)]
    obtain ⟨k, rfl⟩ := slot_cases h4 hw
    fin_cases k <;> cases isWrite <;> exact ⟨_, rfl⟩

end Sys2Proof
end

