-- ==== Sys2Proof/Laws/State.lean ====
section
/-! SUPPORT. One lemma per field per update of State and Engine, true by definition, so that no proof unfolds a
record update. The proofs read `(rfl)`, not `rfl`: as ordinary rewrite rules they leave nothing for the kernel to
unfold, where a rule used up to definitional equality can send it into the 64 rounds of `compress`. -/

namespace Sys2Proof.Machine

variable (e : Engine) (s : State)

/-! ## Engine -/

@[simp] theorem Engine.setMode_mode (m : Mode) : (e.setMode m).mode = m := (rfl)
@[simp] theorem Engine.setMode_hash (m : Mode) : (e.setMode m).hash = e.hash := (rfl)
@[simp] theorem Engine.setMode_dvalid (m : Mode) : (e.setMode m).dvalid = e.dvalid := (rfl)
@[simp] theorem Engine.setMode_err (m : Mode) : (e.setMode m).err = e.err := (rfl)
@[simp] theorem Engine.setMode_srcLo (m : Mode) : (e.setMode m).srcLo = e.srcLo := (rfl)
@[simp] theorem Engine.setMode_srcHi (m : Mode) : (e.setMode m).srcHi = e.srcHi := (rfl)
@[simp] theorem Engine.setMode_lenLo (m : Mode) : (e.setMode m).lenLo = e.lenLo := (rfl)
@[simp] theorem Engine.setMode_lenHi (m : Mode) : (e.setMode m).lenHi = e.lenHi := (rfl)
@[simp] theorem Engine.setMode_dout (m : Mode) : (e.setMode m).dout = e.dout := (rfl)

@[simp] theorem Engine.setHash_mode (h : HashState) : (e.setHash h).mode = e.mode := (rfl)
@[simp] theorem Engine.setHash_hash (h : HashState) : (e.setHash h).hash = h := (rfl)
@[simp] theorem Engine.setHash_dvalid (h : HashState) : (e.setHash h).dvalid = e.dvalid := (rfl)
@[simp] theorem Engine.setHash_err (h : HashState) : (e.setHash h).err = e.err := (rfl)
@[simp] theorem Engine.setHash_srcLo (h : HashState) : (e.setHash h).srcLo = e.srcLo := (rfl)
@[simp] theorem Engine.setHash_srcHi (h : HashState) : (e.setHash h).srcHi = e.srcHi := (rfl)
@[simp] theorem Engine.setHash_lenLo (h : HashState) : (e.setHash h).lenLo = e.lenLo := (rfl)
@[simp] theorem Engine.setHash_lenHi (h : HashState) : (e.setHash h).lenHi = e.lenHi := (rfl)
@[simp] theorem Engine.setHash_dout (h : HashState) : (e.setHash h).dout = e.dout := (rfl)

@[simp] theorem Engine.setDvalid_mode (d : Bool) : (e.setDvalid d).mode = e.mode := (rfl)
@[simp] theorem Engine.setDvalid_hash (d : Bool) : (e.setDvalid d).hash = e.hash := (rfl)
@[simp] theorem Engine.setDvalid_dvalid (d : Bool) : (e.setDvalid d).dvalid = d := (rfl)
@[simp] theorem Engine.setDvalid_err (d : Bool) : (e.setDvalid d).err = e.err := (rfl)
@[simp] theorem Engine.setDvalid_srcLo (d : Bool) : (e.setDvalid d).srcLo = e.srcLo := (rfl)
@[simp] theorem Engine.setDvalid_srcHi (d : Bool) : (e.setDvalid d).srcHi = e.srcHi := (rfl)
@[simp] theorem Engine.setDvalid_lenLo (d : Bool) : (e.setDvalid d).lenLo = e.lenLo := (rfl)
@[simp] theorem Engine.setDvalid_lenHi (d : Bool) : (e.setDvalid d).lenHi = e.lenHi := (rfl)
@[simp] theorem Engine.setDvalid_dout (d : Bool) : (e.setDvalid d).dout = e.dout := (rfl)

@[simp] theorem Engine.setErr_mode (c : ErrCode) : (e.setErr c).mode = e.mode := (rfl)
@[simp] theorem Engine.setErr_hash (c : ErrCode) : (e.setErr c).hash = e.hash := (rfl)
@[simp] theorem Engine.setErr_dvalid (c : ErrCode) : (e.setErr c).dvalid = e.dvalid := (rfl)
@[simp] theorem Engine.setErr_err (c : ErrCode) : (e.setErr c).err = c.code := (rfl)
@[simp] theorem Engine.setErr_srcLo (c : ErrCode) : (e.setErr c).srcLo = e.srcLo := (rfl)
@[simp] theorem Engine.setErr_srcHi (c : ErrCode) : (e.setErr c).srcHi = e.srcHi := (rfl)
@[simp] theorem Engine.setErr_lenLo (c : ErrCode) : (e.setErr c).lenLo = e.lenLo := (rfl)
@[simp] theorem Engine.setErr_lenHi (c : ErrCode) : (e.setErr c).lenHi = e.lenHi := (rfl)
@[simp] theorem Engine.setErr_dout (c : ErrCode) : (e.setErr c).dout = e.dout := (rfl)

@[simp] theorem Engine.setSrcLo_mode (v : Word) : (e.setSrcLo v).mode = e.mode := (rfl)
@[simp] theorem Engine.setSrcLo_hash (v : Word) : (e.setSrcLo v).hash = e.hash := (rfl)
@[simp] theorem Engine.setSrcLo_dvalid (v : Word) : (e.setSrcLo v).dvalid = e.dvalid := (rfl)
@[simp] theorem Engine.setSrcLo_err (v : Word) : (e.setSrcLo v).err = e.err := (rfl)
@[simp] theorem Engine.setSrcLo_srcLo (v : Word) : (e.setSrcLo v).srcLo = v := (rfl)
@[simp] theorem Engine.setSrcLo_srcHi (v : Word) : (e.setSrcLo v).srcHi = e.srcHi := (rfl)
@[simp] theorem Engine.setSrcLo_lenLo (v : Word) : (e.setSrcLo v).lenLo = e.lenLo := (rfl)
@[simp] theorem Engine.setSrcLo_lenHi (v : Word) : (e.setSrcLo v).lenHi = e.lenHi := (rfl)
@[simp] theorem Engine.setSrcLo_dout (v : Word) : (e.setSrcLo v).dout = e.dout := (rfl)

@[simp] theorem Engine.setSrcHi_mode (v : Word) : (e.setSrcHi v).mode = e.mode := (rfl)
@[simp] theorem Engine.setSrcHi_hash (v : Word) : (e.setSrcHi v).hash = e.hash := (rfl)
@[simp] theorem Engine.setSrcHi_dvalid (v : Word) : (e.setSrcHi v).dvalid = e.dvalid := (rfl)
@[simp] theorem Engine.setSrcHi_err (v : Word) : (e.setSrcHi v).err = e.err := (rfl)
@[simp] theorem Engine.setSrcHi_srcLo (v : Word) : (e.setSrcHi v).srcLo = e.srcLo := (rfl)
@[simp] theorem Engine.setSrcHi_srcHi (v : Word) : (e.setSrcHi v).srcHi = v := (rfl)
@[simp] theorem Engine.setSrcHi_lenLo (v : Word) : (e.setSrcHi v).lenLo = e.lenLo := (rfl)
@[simp] theorem Engine.setSrcHi_lenHi (v : Word) : (e.setSrcHi v).lenHi = e.lenHi := (rfl)
@[simp] theorem Engine.setSrcHi_dout (v : Word) : (e.setSrcHi v).dout = e.dout := (rfl)

@[simp] theorem Engine.setLenLo_mode (v : Word) : (e.setLenLo v).mode = e.mode := (rfl)
@[simp] theorem Engine.setLenLo_hash (v : Word) : (e.setLenLo v).hash = e.hash := (rfl)
@[simp] theorem Engine.setLenLo_dvalid (v : Word) : (e.setLenLo v).dvalid = e.dvalid := (rfl)
@[simp] theorem Engine.setLenLo_err (v : Word) : (e.setLenLo v).err = e.err := (rfl)
@[simp] theorem Engine.setLenLo_srcLo (v : Word) : (e.setLenLo v).srcLo = e.srcLo := (rfl)
@[simp] theorem Engine.setLenLo_srcHi (v : Word) : (e.setLenLo v).srcHi = e.srcHi := (rfl)
@[simp] theorem Engine.setLenLo_lenLo (v : Word) : (e.setLenLo v).lenLo = v := (rfl)
@[simp] theorem Engine.setLenLo_lenHi (v : Word) : (e.setLenLo v).lenHi = e.lenHi := (rfl)
@[simp] theorem Engine.setLenLo_dout (v : Word) : (e.setLenLo v).dout = e.dout := (rfl)

@[simp] theorem Engine.setLenHi_mode (v : Word) : (e.setLenHi v).mode = e.mode := (rfl)
@[simp] theorem Engine.setLenHi_hash (v : Word) : (e.setLenHi v).hash = e.hash := (rfl)
@[simp] theorem Engine.setLenHi_dvalid (v : Word) : (e.setLenHi v).dvalid = e.dvalid := (rfl)
@[simp] theorem Engine.setLenHi_err (v : Word) : (e.setLenHi v).err = e.err := (rfl)
@[simp] theorem Engine.setLenHi_srcLo (v : Word) : (e.setLenHi v).srcLo = e.srcLo := (rfl)
@[simp] theorem Engine.setLenHi_srcHi (v : Word) : (e.setLenHi v).srcHi = e.srcHi := (rfl)
@[simp] theorem Engine.setLenHi_lenLo (v : Word) : (e.setLenHi v).lenLo = e.lenLo := (rfl)
@[simp] theorem Engine.setLenHi_lenHi (v : Word) : (e.setLenHi v).lenHi = v := (rfl)
@[simp] theorem Engine.setLenHi_dout (v : Word) : (e.setLenHi v).dout = e.dout := (rfl)

@[simp] theorem Engine.setDout_mode (h : HashState) : (e.setDout h).mode = e.mode := (rfl)
@[simp] theorem Engine.setDout_hash (h : HashState) : (e.setDout h).hash = e.hash := (rfl)
@[simp] theorem Engine.setDout_dvalid (h : HashState) : (e.setDout h).dvalid = e.dvalid := (rfl)
@[simp] theorem Engine.setDout_err (h : HashState) : (e.setDout h).err = e.err := (rfl)
@[simp] theorem Engine.setDout_srcLo (h : HashState) : (e.setDout h).srcLo = e.srcLo := (rfl)
@[simp] theorem Engine.setDout_srcHi (h : HashState) : (e.setDout h).srcHi = e.srcHi := (rfl)
@[simp] theorem Engine.setDout_lenLo (h : HashState) : (e.setDout h).lenLo = e.lenLo := (rfl)
@[simp] theorem Engine.setDout_lenHi (h : HashState) : (e.setDout h).lenHi = e.lenHi := (rfl)
@[simp] theorem Engine.setDout_dout (h : HashState) : (e.setDout h).dout = h := (rfl)

/-! ## State -/

@[simp] theorem State.setEngine_engine (x : Engine) : (s.setEngine x).engine = x := (rfl)
@[simp] theorem State.setEngine_regBase (x : Engine) : (s.setEngine x).regBase = s.regBase := (rfl)
@[simp] theorem State.setEngine_others (x : Engine) : (s.setEngine x).others = s.others := (rfl)
@[simp] theorem State.setEngine_mem (x : Engine) : (s.setEngine x).mem = s.mem := (rfl)
@[simp] theorem State.setEngine_regions (x : Engine) : (s.setEngine x).regions = s.regions := (rfl)
@[simp] theorem State.setEngine_inFlight (x : Engine) : (s.setEngine x).inFlight = s.inFlight := (rfl)
@[simp] theorem State.setEngine_pending (x : Engine) : (s.setEngine x).pending = s.pending := (rfl)
@[simp] theorem State.setEngine_returned (x : Engine) : (s.setEngine x).returned = s.returned := (rfl)
@[simp] theorem State.setEngine_draws (x : Engine) : (s.setEngine x).draws = s.draws := (rfl)

@[simp] theorem State.respond_engine (v : Word) : (s.respond v).engine = s.engine := (rfl)
@[simp] theorem State.respond_regBase (v : Word) : (s.respond v).regBase = s.regBase := (rfl)
@[simp] theorem State.respond_others (v : Word) : (s.respond v).others = s.others := (rfl)
@[simp] theorem State.respond_mem (v : Word) : (s.respond v).mem = s.mem := (rfl)
@[simp] theorem State.respond_regions (v : Word) : (s.respond v).regions = s.regions := (rfl)
@[simp] theorem State.respond_inFlight (v : Word) : (s.respond v).inFlight = s.inFlight := (rfl)
@[simp] theorem State.respond_pending (v : Word) : (s.respond v).pending = s.pending := (rfl)
@[simp] theorem State.respond_returned (v : Word) : (s.respond v).returned = v :: s.returned := (rfl)
@[simp] theorem State.respond_draws (v : Word) : (s.respond v).draws = s.draws := (rfl)

@[simp] theorem State.nextDraw_engine : (s.nextDraw).engine = s.engine := (rfl)
@[simp] theorem State.nextDraw_regBase : (s.nextDraw).regBase = s.regBase := (rfl)
@[simp] theorem State.nextDraw_others : (s.nextDraw).others = s.others := (rfl)
@[simp] theorem State.nextDraw_mem : (s.nextDraw).mem = s.mem := (rfl)
@[simp] theorem State.nextDraw_regions : (s.nextDraw).regions = s.regions := (rfl)
@[simp] theorem State.nextDraw_inFlight : (s.nextDraw).inFlight = s.inFlight := (rfl)
@[simp] theorem State.nextDraw_pending : (s.nextDraw).pending = s.pending := (rfl)
@[simp] theorem State.nextDraw_returned : (s.nextDraw).returned = s.returned := (rfl)
@[simp] theorem State.nextDraw_draws : (s.nextDraw).draws = s.draws + 1 := (rfl)

@[simp] theorem State.withPending_engine (p : List HostEvent) : (s.withPending p).engine = s.engine := (rfl)
@[simp] theorem State.withPending_regBase (p : List HostEvent) : (s.withPending p).regBase = s.regBase := (rfl)
@[simp] theorem State.withPending_others (p : List HostEvent) : (s.withPending p).others = s.others := (rfl)
@[simp] theorem State.withPending_mem (p : List HostEvent) : (s.withPending p).mem = s.mem := (rfl)
@[simp] theorem State.withPending_regions (p : List HostEvent) : (s.withPending p).regions = s.regions := (rfl)
@[simp] theorem State.withPending_inFlight (p : List HostEvent) : (s.withPending p).inFlight = s.inFlight := (rfl)
@[simp] theorem State.withPending_pending (p : List HostEvent) : (s.withPending p).pending = p := (rfl)
@[simp] theorem State.withPending_returned (p : List HostEvent) : (s.withPending p).returned = s.returned := (rfl)
@[simp] theorem State.withPending_draws (p : List HostEvent) : (s.withPending p).draws = s.draws := (rfl)

@[simp] theorem State.writeByte_engine (a : Addr) (b : Byte) : (s.writeByte a b).engine = s.engine := (rfl)
@[simp] theorem State.writeByte_regBase (a : Addr) (b : Byte) : (s.writeByte a b).regBase = s.regBase := (rfl)
@[simp] theorem State.writeByte_others (a : Addr) (b : Byte) : (s.writeByte a b).others = s.others := (rfl)
@[simp] theorem State.writeByte_mem (a : Addr) (b : Byte) : (s.writeByte a b).mem = s.mem.write a.toNat b := (rfl)
@[simp] theorem State.writeByte_regions (a : Addr) (b : Byte) : (s.writeByte a b).regions = s.regions := (rfl)
@[simp] theorem State.writeByte_inFlight (a : Addr) (b : Byte) : (s.writeByte a b).inFlight = s.inFlight := (rfl)
@[simp] theorem State.writeByte_pending (a : Addr) (b : Byte) : (s.writeByte a b).pending = s.pending := (rfl)
@[simp] theorem State.writeByte_returned (a : Addr) (b : Byte) : (s.writeByte a b).returned = s.returned := (rfl)
@[simp] theorem State.writeByte_draws (a : Addr) (b : Byte) : (s.writeByte a b).draws = s.draws := (rfl)

@[simp] theorem State.startRacing_engine (a : Addr) (b : Byte) : (s.startRacing a b).engine = s.engine := (rfl)
@[simp] theorem State.startRacing_regBase (a : Addr) (b : Byte) : (s.startRacing a b).regBase = s.regBase := (rfl)
@[simp] theorem State.startRacing_others (a : Addr) (b : Byte) : (s.startRacing a b).others = s.others := (rfl)
@[simp] theorem State.startRacing_mem (a : Addr) (b : Byte) : (s.startRacing a b).mem = s.mem := (rfl)
@[simp] theorem State.startRacing_regions (a : Addr) (b : Byte) : (s.startRacing a b).regions = s.regions := (rfl)
@[simp] theorem State.startRacing_inFlight (a : Addr) (b : Byte) : (s.startRacing a b).inFlight = s.inFlight ++ [(a, b)] := (rfl)
@[simp] theorem State.startRacing_pending (a : Addr) (b : Byte) : (s.startRacing a b).pending = s.pending := (rfl)
@[simp] theorem State.startRacing_returned (a : Addr) (b : Byte) : (s.startRacing a b).returned = s.returned := (rfl)
@[simp] theorem State.startRacing_draws (a : Addr) (b : Byte) : (s.startRacing a b).draws = s.draws := (rfl)

@[simp] theorem State.landWrites_engine : s.landWrites.engine = s.engine := (rfl)
@[simp] theorem State.landWrites_regBase : s.landWrites.regBase = s.regBase := (rfl)
@[simp] theorem State.landWrites_others : s.landWrites.others = s.others := (rfl)
@[simp] theorem State.landWrites_mem : s.landWrites.mem = s.mem.writeAll s.inFlight := (rfl)
@[simp] theorem State.landWrites_regions : s.landWrites.regions = s.regions := (rfl)
@[simp] theorem State.landWrites_inFlight : s.landWrites.inFlight = [] := (rfl)
@[simp] theorem State.landWrites_pending : s.landWrites.pending = s.pending := (rfl)
@[simp] theorem State.landWrites_returned : s.landWrites.returned = s.returned := (rfl)
@[simp] theorem State.landWrites_draws : s.landWrites.draws = s.draws := (rfl)

@[simp] theorem State.setEngine_setEngine (x y : Engine) : (s.setEngine x).setEngine y = s.setEngine y := (rfl)
@[simp] theorem State.setEngine_engine_self : s.setEngine s.engine = s := (rfl)
@[simp] theorem State.setDvalid_eq (d : Bool) : s.setDvalid d = s.setEngine (s.engine.setDvalid d) := (rfl)
@[simp] theorem State.withPending_pending_self : s.withPending s.pending = s := (rfl)

/-- Reading the input depends on the state only through these four fields and SRC. -/
@[simp] theorem State.admits_setEngine (x : Engine) (a : Nat) : (s.setEngine x).admits a = s.admits a := (rfl)
@[simp] theorem State.racing_setEngine (x : Engine) (a : Nat) : (s.setEngine x).racing a = s.racing a := (rfl)
@[simp] theorem State.sideEffects_setEngine (x : Engine) (a n : Nat) :
    (s.setEngine x).sideEffects a n = s.sideEffects a n := (rfl)
@[simp] theorem State.admits_respond (v : Word) (a : Nat) : (s.respond v).admits a = s.admits a := (rfl)
@[simp] theorem State.racing_respond (v : Word) (a : Nat) : (s.respond v).racing a = s.racing a := (rfl)
@[simp] theorem State.sideEffects_respond (v : Word) (a n : Nat) :
    (s.respond v).sideEffects a n = s.sideEffects a n := (rfl)
@[simp] theorem State.admits_nextDraw (a : Nat) : s.nextDraw.admits a = s.admits a := (rfl)
@[simp] theorem State.racing_nextDraw (a : Nat) : s.nextDraw.racing a = s.racing a := (rfl)
@[simp] theorem State.sideEffects_nextDraw (a n : Nat) : s.nextDraw.sideEffects a n = s.sideEffects a n := (rfl)

end Sys2Proof.Machine
end

