-- ==== Sys2Proof/Laws/Memory.lean ====
section
/-! SUPPORT. The laws of the input memory: read after write, and every operation keeps the canonical form. -/

namespace Sys2Proof.Machine

theorem Memory.wfFrom_mono {lo lo' : Nat} {m : Memory} (hlo : lo' ≤ lo) (h : Memory.wfFrom lo m = true) :
    Memory.wfFrom lo' m = true := by
  cases m with
  | nil => rfl
  | cons c m =>
    simp only [Memory.wfFrom, Bool.and_eq_true, decide_eq_true_eq] at h ⊢
    exact ⟨⟨⟨Nat.le_trans hlo h.1.1.1, h.1.1.2⟩, h.1.2⟩, h.2⟩

/-- A canonical memory from `lo` on reads as unlisted below `lo`. -/
theorem Memory.read_below {lo a : Nat} {m : Memory} (h : Memory.wfFrom lo m = true) (ha : a < lo) :
    Memory.read m a = Config.unlistedByte := by
  induction m generalizing lo with
  | nil => rfl
  | cons c m ih =>
    obtain ⟨k, v⟩ := c
    simp only [Memory.wfFrom, Bool.and_eq_true, decide_eq_true_eq] at h
    have hk : k ≠ a := by omega
    simp only [Memory.read, if_neg hk]
    exact ih h.2 (by omega)

theorem Memory.wfFrom_write {lo a : Nat} {b : Byte} {m : Memory} (h : Memory.wfFrom lo m = true)
    (hlo : lo ≤ a) (ha : a < 2 ^ 64) : Memory.wfFrom lo (Memory.write m a b) = true := by
  induction m generalizing lo with
  | nil =>
    unfold Memory.write
    split
    · rfl
    · simp only [Memory.wfFrom, Bool.and_eq_true, decide_eq_true_eq]
      exact ⟨⟨⟨hlo, ha⟩, ‹_›⟩, trivial⟩
  | cons c m ih =>
    obtain ⟨k, v⟩ := c
    have h' := h
    simp only [Memory.wfFrom, Bool.and_eq_true, decide_eq_true_eq] at h
    obtain ⟨⟨⟨h1, h2⟩, h3⟩, h4⟩ := h
    unfold Memory.write
    split
    · split
      · exact h'
      · simp only [Memory.wfFrom, Bool.and_eq_true, decide_eq_true_eq]
        exact ⟨⟨⟨hlo, ha⟩, ‹_›⟩, ⟨⟨by omega, h2⟩, h3⟩, h4⟩
    · split
      · split
        · exact Memory.wfFrom_mono (by omega) h4
        · subst a
          simp only [Memory.wfFrom, Bool.and_eq_true, decide_eq_true_eq]
          exact ⟨⟨⟨hlo, ha⟩, ‹_›⟩, h4⟩
      · simp only [Memory.wfFrom, Bool.and_eq_true, decide_eq_true_eq]
        exact ⟨⟨⟨h1, h2⟩, h3⟩, ih h4 (by omega)⟩

/-- A write keeps the canonical form. -/
theorem Memory.wf_write {m : Memory} {a : Nat} {b : Byte} (h : m.wf = true) (ha : a < 2 ^ 64) :
    (Memory.write m a b).wf = true :=
  Memory.wfFrom_write h (Nat.zero_le _) ha

theorem Memory.read_write_same_from {lo a : Nat} {b : Byte} {m : Memory} (h : Memory.wfFrom lo m = true) :
    Memory.read (Memory.write m a b) a = b := by
  induction m generalizing lo with
  | nil =>
    unfold Memory.write
    split
    · simp [Memory.read, *]
    · simp [Memory.read]
  | cons c m ih =>
    obtain ⟨k, v⟩ := c
    simp only [Memory.wfFrom, Bool.and_eq_true, decide_eq_true_eq] at h
    obtain ⟨⟨⟨h1, h2⟩, h3⟩, h4⟩ := h
    unfold Memory.write
    split
    · split
      · subst b
        have hk : k ≠ a := by omega
        simp only [Memory.read, if_neg hk]
        exact Memory.read_below h4 (by omega)
      · simp [Memory.read]
    · split
      · split
        · subst b
          exact Memory.read_below h4 (by omega)
        · simp [Memory.read]
      · have hk : k ≠ a := fun hka => by omega
        simp only [Memory.read, if_neg hk]
        exact ih h4

/-- A read after a write to the same address gives the byte written. -/
theorem Memory.read_write_same {m : Memory} {a : Nat} {b : Byte} (h : m.wf = true) :
    Memory.read (Memory.write m a b) a = b :=
  Memory.read_write_same_from h

/-- A write leaves every other address alone. -/
theorem Memory.read_write_other {m : Memory} {a c : Nat} {b : Byte} (hc : c ≠ a) :
    Memory.read (Memory.write m a b) c = Memory.read m c := by
  induction m with
  | nil =>
    unfold Memory.write
    split
    · rfl
    · simp [Memory.read, Ne.symm hc]
  | cons p m ih =>
    obtain ⟨k, v⟩ := p
    unfold Memory.write
    split
    · split
      · rfl
      · simp [Memory.read, Ne.symm hc]
    · split
      · subst k
        split <;> simp [Memory.read, Ne.symm hc]
      · simp only [Memory.read, ih]

/-- Several writes keep the canonical form. -/
theorem Memory.wf_writeAll {m : Memory} (ws : List (Addr × Byte)) (h : m.wf = true) :
    (m.writeAll ws).wf = true := by
  induction ws generalizing m with
  | nil => exact h
  | cons w ws ih => exact ih (Memory.wf_write h w.1.isLt)

/-- After several writes a byte holds the last value written to it. -/
theorem Memory.read_writeAll {m : Memory} (ws : List (Addr × Byte)) (a : Nat) (h : m.wf = true) :
    (m.writeAll ws).read a =
      (ws.filterMap (fun w => if w.1.toNat = a then some w.2 else none)).getLastD (m.read a) := by
  induction ws generalizing m with
  | nil => rfl
  | cons w ws ih =>
    have hw : (m.write w.1.toNat w.2).wf = true := Memory.wf_write h w.1.isLt
    have step : m.writeAll (w :: ws) = (m.write w.1.toNat w.2).writeAll ws := rfl
    rw [step, ih hw]
    by_cases hc : w.1.toNat = a
    · subst a
      rw [Memory.read_write_same h, List.filterMap_cons]
      simp only [if_true]
      rw [List.getLastD_cons]
    · rw [List.filterMap_cons]
      simp only [if_neg hc]
      rw [Memory.read_write_other (Ne.symm hc)]

end Sys2Proof.Machine
end

