-- ==== Sys2Proof/Laws/Input.lean ====
section
/-! SUPPORT. What reading a command's input comes to (R61, R66, R68, R72). -/

namespace Sys2Proof.Machine

theorem State.inputByte_mem_heldValues (s : State) (a : Nat) : s.inputByte a ∈ s.heldValues a := by
  unfold State.inputByte State.heldValues
  split
  · simp
  · rename_i v vs h
    rw [h, List.getD_eq_getElem?_getD]
    have hlt : Config.raceChoice s.draws a % (vs.length + 2) < (s.mem.read a :: v :: vs).length := by
      exact Nat.mod_lt (Config.raceChoice s.draws a) (show 0 < vs.length + 2 by omega)
    rw [List.getElem?_eq_getElem hlt]
    exact List.getElem_mem hlt

/-- Nobody writes the byte: the command uses what memory holds (R72(a)). -/
theorem State.inputByte_stable {s : State} {a : Nat} (h : s.racing a = []) : s.inputByte a = s.mem.read a := by
  unfold State.inputByte
  rw [h]

/-- Every byte is admitted: the read answers one byte per address, in order. -/
theorem State.readBytes_admitted {s : State} {a n : Nat} (h : ∀ i < n, s.admits (a + i) = true) :
    s.readBytes a n = some ((List.range n).map (fun i => s.inputByte (a + i))) := by
  induction n generalizing a with
  | zero => rfl
  | succ n ih =>
    have h0 : s.admits a = true := by simpa using h 0 (by omega)
    have hrest : ∀ i < n, s.admits (a + 1 + i) = true := fun i hi => by
      have := h (i + 1) (by omega)
      rwa [show a + 1 + i = a + (i + 1) by omega]
    have hmap : (List.range n).map ((fun i => s.inputByte (a + i)) ∘ Nat.succ) =
        (List.range n).map (fun i => s.inputByte (a + 1 + i)) := by
      apply List.map_congr_left
      intro i _
      simp only [Function.comp]
      congr 1
      omega
    rw [List.range_succ_eq_map, List.map_cons, List.map_map, hmap]
    simp [State.readBytes, State.memRead, h0, ih hrest]

/-- Some byte is not admitted: a bus error. -/
theorem State.readBytes_refused {s : State} {a n : Nat} (h : ∃ i < n, s.admits (a + i) = false) :
    s.readBytes a n = none := by
  induction n generalizing a with
  | zero =>
    obtain ⟨i, hi, _⟩ := h
    omega
  | succ n ih =>
    by_cases h0 : s.admits a = true
    · have hrest : ∃ i < n, s.admits (a + 1 + i) = false := by
        obtain ⟨i, hi, hx⟩ := h
        cases i with
        | zero => simp [h0] at hx
        | succ i =>
          refine ⟨i, by omega, ?_⟩
          rwa [show a + 1 + i = a + (i + 1) by omega]
      simp [State.readBytes, State.memRead, h0, ih hrest]
    · simp [State.readBytes, State.memRead, h0]

theorem State.readBytes_cases (s : State) (a n : Nat) :
    ((∀ i < n, s.admits (a + i) = true) ∧
      s.readBytes a n = some ((List.range n).map (fun i => s.inputByte (a + i)))) ∨
    ((∃ i < n, s.admits (a + i) = false) ∧ s.readBytes a n = none) := by
  by_cases h : ∀ i < n, s.admits (a + i) = true
  · exact .inl ⟨h, State.readBytes_admitted h⟩
  · simp only [not_forall, Bool.not_eq_true] at h
    obtain ⟨i, hi, hx⟩ := h
    exact .inr ⟨⟨i, hi, hx⟩, State.readBytes_refused ⟨i, hi, hx⟩⟩

/-- The three answers of `readInput`, and when each is given. -/
theorem State.readInput_cases (s : State) (n : Nat) :
    (s.sideEffects s.engine.src.toNat n = true ∧ s.readInput n = .sideEffecting) ∨
    (s.sideEffects s.engine.src.toNat n = false ∧ (∃ i < n, s.admits (s.engine.src.toNat + i) = false) ∧
      s.readInput n = .busError) ∨
    (s.inputReadable n ∧
      s.readInput n = .bytes ((List.range n).map (fun i => s.inputByte (s.engine.src.toNat + i)))) := by
  unfold State.readInput State.inputReadable
  by_cases hs : s.sideEffects s.engine.src.toNat n = true
  · exact .inl ⟨hs, if_pos hs⟩
  · have hs' : s.sideEffects s.engine.src.toNat n = false := by simpa using hs
    rcases s.readBytes_cases s.engine.src.toNat n with ⟨ha, hr⟩ | ⟨ha, hr⟩
    · exact .inr (.inr ⟨⟨hs', ha⟩, by rw [if_neg hs, hr]⟩)
    · exact .inr (.inl ⟨hs', ha, by rw [if_neg hs, hr]⟩)

theorem State.readInput_readable {s : State} {n : Nat} (h : s.inputReadable n) :
    s.readInput n = .bytes ((List.range n).map (fun i => s.inputByte (s.engine.src.toNat + i))) := by
  unfold State.readInput
  rw [if_neg (by simp [h.1]), State.readBytes_admitted h.2]

/-- Readable and quiet: the input is what memory holds (R72(a)). -/
theorem State.readInput_stable {s : State} {n : Nat} (h : s.inputReadable n) (hq : s.inputStable n) :
    s.readInput n = .bytes (memBytes s.mem s.engine.src.toNat n) := by
  rw [State.readInput_readable h, memBytes]
  congr 1
  apply List.map_congr_left
  intro i hi
  exact State.inputByte_stable (hq i (List.mem_range.mp hi))

/-! ## What reading depends on -/

theorem State.inputByte_congr {s t : State} (hm : s.mem = t.mem) (hf : s.inFlight = t.inFlight)
    (hd : s.draws = t.draws) (a : Nat) : s.inputByte a = t.inputByte a := by
  obtain ⟨⟩ := s
  obtain ⟨⟩ := t
  subst hm hf hd
  rfl

theorem State.readBytes_congr {s t : State} (hr : s.regions = t.regions) (hm : s.mem = t.mem)
    (hf : s.inFlight = t.inFlight) (hd : s.draws = t.draws) (a n : Nat) :
    s.readBytes a n = t.readBytes a n := by
  induction n generalizing a with
  | zero => rfl
  | succ n ih =>
    have hb : s.memRead a = t.memRead a := by
      unfold State.memRead State.admits
      rw [hr, State.inputByte_congr hm hf hd]
    simp only [State.readBytes, hb, ih]

/-- Two states with one SRC, one memory map, one memory, the same writes in flight and the same draw read the
same input. -/
theorem State.readInput_congr {s t : State} (hs : s.engine.src = t.engine.src) (hr : s.regions = t.regions)
    (hm : s.mem = t.mem) (hf : s.inFlight = t.inFlight) (hd : s.draws = t.draws) (n : Nat) :
    s.readInput n = t.readInput n := by
  unfold State.readInput State.sideEffects
  rw [hs, hr, State.readBytes_congr hr hm hf hd]

@[simp] theorem memBytes_length (m : Memory) (a n : Nat) : (memBytes m a n).length = n := by simp [memBytes]

end Sys2Proof.Machine
end

