-- ==== Sys2Proof/Laws/Exec.lean ====
section
/-! SUPPORT. Once for each meaning, everything it can do: the case lemmas that the provers cite instead of
unfolding. -/

namespace Sys2Proof.Machine

theorem Engine.ready_eq_false {e : Engine} : e.ready = false ↔ e.mode = .uninit := by
  cases h : e.mode <;> simp [Engine.ready, h]

theorem Engine.ready_eq_true {e : Engine} : e.ready = true ↔ e.mode = .ready := by
  cases h : e.mode <;> simp [Engine.ready, h]

theorem Engine.rangeOverflows_iff {e : Engine} {n : Nat} :
    e.rangeOverflows n = true ↔ 2 ^ 64 < e.src.toNat + n := by
  simp [Engine.rangeOverflows]

theorem Engine.lengthTooLarge_iff {e : Engine} : e.lengthTooLarge = true ↔ 2 ^ 61 ≤ e.len.toNat := by
  simp [Engine.lengthTooLarge]

/-- SRC as a number (R33, R84). -/
theorem assemble64_toNat (hi lo : Word) : (assemble64 hi lo).toNat = hi.toNat * 2 ^ 32 + lo.toNat := by
  have hlo := lo.isLt
  have hhi := hi.isLt
  unfold assemble64
  rw [BitVec.toNat_or, BitVec.toNat_shiftLeft, BitVec.toNat_setWidth, BitVec.toNat_setWidth,
    Nat.mod_eq_of_lt (by omega : hi.toNat < 2 ^ 64), Nat.mod_eq_of_lt (by omega : lo.toNat < 2 ^ 64),
    Nat.shiftLeft_eq, Nat.mod_eq_of_lt (by omega), Nat.mul_comm, ← Nat.two_pow_add_eq_or_of_lt hlo]

/-- The halves of a 64-bit number give it back (R87). -/
theorem assemble64_halves (x : BitVec 64) : assemble64 (x.extractLsb' 32 32) (x.extractLsb' 0 32) = x := by
  apply BitVec.eq_of_toNat_eq
  rw [assemble64_toNat, BitVec.extractLsb'_toNat, BitVec.extractLsb'_toNat]
  have := x.isLt
  simp only [Nat.shiftRight_eq_div_pow]
  omega

/-! ## What the shared endings of a command change -/

section

variable (s : State) (c : ErrCode) (b : List Byte)

@[simp] theorem State.raise_regBase : (s.raise c).regBase = s.regBase := by cases c <;> rfl
@[simp] theorem State.raise_others : (s.raise c).others = s.others := by cases c <;> rfl
@[simp] theorem State.raise_mem : (s.raise c).mem = s.mem := by cases c <;> rfl
@[simp] theorem State.raise_regions : (s.raise c).regions = s.regions := by cases c <;> rfl
@[simp] theorem State.raise_inFlight : (s.raise c).inFlight = s.inFlight := by cases c <;> rfl
@[simp] theorem State.raise_pending : (s.raise c).pending = s.pending := by cases c <;> rfl
@[simp] theorem State.raise_returned : (s.raise c).returned = s.returned := by cases c <;> rfl
@[simp] theorem State.raiseDigest_regBase : (s.raiseDigest c).regBase = s.regBase := by
  rw [State.raiseDigest, State.raise_regBase]
  rfl
@[simp] theorem State.raiseDigest_others : (s.raiseDigest c).others = s.others := by
  rw [State.raiseDigest, State.raise_others]
  rfl
@[simp] theorem State.raiseDigest_mem : (s.raiseDigest c).mem = s.mem := by
  rw [State.raiseDigest, State.raise_mem]
  rfl
@[simp] theorem State.raiseDigest_regions : (s.raiseDigest c).regions = s.regions := by
  rw [State.raiseDigest, State.raise_regions]
  rfl
@[simp] theorem State.raiseDigest_inFlight : (s.raiseDigest c).inFlight = s.inFlight := by
  rw [State.raiseDigest, State.raise_inFlight]
  rfl
@[simp] theorem State.raiseDigest_pending : (s.raiseDigest c).pending = s.pending := by
  rw [State.raiseDigest, State.raise_pending]
  rfl
@[simp] theorem State.raiseDigest_returned : (s.raiseDigest c).returned = s.returned := by
  rw [State.raiseDigest, State.raise_returned]
  rfl
@[simp] theorem State.finishCompress_regBase : (s.finishCompress b).regBase = s.regBase := by simp [State.finishCompress]
@[simp] theorem State.finishCompress_others : (s.finishCompress b).others = s.others := by simp [State.finishCompress]
@[simp] theorem State.finishCompress_mem : (s.finishCompress b).mem = s.mem := by simp [State.finishCompress]
@[simp] theorem State.finishCompress_regions : (s.finishCompress b).regions = s.regions := by simp [State.finishCompress]
@[simp] theorem State.finishCompress_inFlight : (s.finishCompress b).inFlight = s.inFlight := by simp [State.finishCompress]
@[simp] theorem State.finishCompress_pending : (s.finishCompress b).pending = s.pending := by simp [State.finishCompress]
@[simp] theorem State.finishCompress_returned : (s.finishCompress b).returned = s.returned := by simp [State.finishCompress]
@[simp] theorem State.finishDigest_regBase : (s.finishDigest b).regBase = s.regBase := by simp [State.finishDigest]
@[simp] theorem State.finishDigest_others : (s.finishDigest b).others = s.others := by simp [State.finishDigest]
@[simp] theorem State.finishDigest_mem : (s.finishDigest b).mem = s.mem := by simp [State.finishDigest]
@[simp] theorem State.finishDigest_regions : (s.finishDigest b).regions = s.regions := by simp [State.finishDigest]
@[simp] theorem State.finishDigest_inFlight : (s.finishDigest b).inFlight = s.inFlight := by simp [State.finishDigest]
@[simp] theorem State.finishDigest_pending : (s.finishDigest b).pending = s.pending := by simp [State.finishDigest]
@[simp] theorem State.finishDigest_returned : (s.finishDigest b).returned = s.returned := by simp [State.finishDigest]

theorem Engine.setHash_setErr (e : Engine) (h : HashState) (c : ErrCode) :
    (e.setHash h).setErr c = { e with hash := h, err := c.code } := (rfl)
theorem Engine.setDigest (e : Engine) (h : HashState) (c : ErrCode) :
    (((e.setHash h).setDout h).setDvalid true).setErr c =
      { e with hash := h, dout := h, dvalid := true, err := c.code } := (rfl)

/-- COMPRESS and DIGEST end with the engine, and for an input that was reached the draws, changed. -/
theorem State.finishCompress_eq : s.finishCompress b = { s with
    engine := { s.engine with hash := compress s.engine.hash b, err := 0 }, draws := s.draws + 1 } := by
  rw [State.finishCompress, Engine.setHash_setErr]
  rfl
theorem State.finishDigest_eq : s.finishDigest b = { s with
    engine := { s.engine with hash := digestFrom s.engine.hash b, dout := digestFrom s.engine.hash b,
                              dvalid := true, err := 0 }, draws := s.draws + 1 } := by
  rw [State.finishDigest, Engine.setDigest]
  rfl
@[simp] theorem State.finishCompress_engine : (s.finishCompress b).engine =
    { s.engine with hash := compress s.engine.hash b, err := 0 } := by
  rw [State.finishCompress_eq]
@[simp] theorem State.finishDigest_engine : (s.finishDigest b).engine =
    { s.engine with hash := digestFrom s.engine.hash b, dout := digestFrom s.engine.hash b,
                    dvalid := true, err := 0 } := by
  rw [State.finishDigest_eq]
@[simp] theorem State.finishCompress_draws : (s.finishCompress b).draws = s.draws + 1 := by
  simp [State.finishCompress]
@[simp] theorem State.finishDigest_draws : (s.finishDigest b).draws = s.draws + 1 := by
  simp [State.finishDigest]
/-- The whole effect of each error (R161 to R165). -/
theorem State.raise_illegalCmd_eq :
    s.raise .illegalCmd = { s with engine := { s.engine with err := 1 } } := (rfl)
theorem State.raise_notReady_eq : s.raise .notReady = { s with engine := { s.engine with err := 2 } } := (rfl)
theorem State.raise_addrOverflow_eq :
    s.raise .addrOverflow = { s with engine := { s.engine with err := 4 } } := (rfl)
theorem State.raise_busError_eq : s.raise .busError = { s with
    engine := { s.engine with err := 5, mode := .uninit, hash := freeHash s.draws 0 },
    draws := s.draws + 1 } := (rfl)
theorem State.raiseDigest_notReady_eq :
    s.raiseDigest .notReady = { s with engine := { s.engine with err := 2, dvalid := false } } := (rfl)
theorem State.raiseDigest_inputTooLarge_eq :
    s.raiseDigest .inputTooLarge = { s with engine := { s.engine with err := 3, dvalid := false } } := (rfl)
theorem State.raiseDigest_addrOverflow_eq :
    s.raiseDigest .addrOverflow = { s with engine := { s.engine with err := 4, dvalid := false } } := (rfl)
theorem State.raiseDigest_busError_eq : s.raiseDigest .busError = { s with
    engine := { s.engine with err := 5, dvalid := false, mode := .uninit, hash := freeHash s.draws 0 },
    draws := s.draws + 1 } := (rfl)
@[simp] theorem State.raise_ok_engine : (s.raise .ok).engine = { s.engine with err := 0 } := (rfl)
@[simp] theorem State.raise_illegalCmd_engine :
    (s.raise .illegalCmd).engine = { s.engine with err := 1 } := (rfl)
@[simp] theorem State.raise_notReady_engine : (s.raise .notReady).engine = { s.engine with err := 2 } := (rfl)
@[simp] theorem State.raise_inputTooLarge_engine :
    (s.raise .inputTooLarge).engine = { s.engine with err := 3 } := (rfl)
@[simp] theorem State.raise_addrOverflow_engine :
    (s.raise .addrOverflow).engine = { s.engine with err := 4 } := (rfl)
@[simp] theorem State.raise_busError_engine : (s.raise .busError).engine =
    { s.engine with err := 5, mode := .uninit, hash := freeHash s.draws 0 } := (rfl)
@[simp] theorem State.raiseDigest_notReady_engine :
    (s.raiseDigest .notReady).engine = { s.engine with err := 2, dvalid := false } := (rfl)
@[simp] theorem State.raiseDigest_inputTooLarge_engine :
    (s.raiseDigest .inputTooLarge).engine = { s.engine with err := 3, dvalid := false } := (rfl)
@[simp] theorem State.raiseDigest_addrOverflow_engine :
    (s.raiseDigest .addrOverflow).engine = { s.engine with err := 4, dvalid := false } := (rfl)
@[simp] theorem State.raiseDigest_busError_engine : (s.raiseDigest .busError).engine =
    { s.engine with err := 5, dvalid := false, mode := .uninit, hash := freeHash s.draws 0 } := (rfl)

end

/-! ## The commands -/

/-- The five outcomes of COMPRESS, in the order of R166, and when each is the one. -/
theorem exec_compress_cases (s : State) :
    (s.engine.mode = .uninit ∧ exec .compress s = .next (s.raise .notReady)) ∨
    (s.engine.mode = .ready ∧ 2 ^ 64 < s.engine.src.toNat + 64 ∧
      exec .compress s = .next (s.raise .addrOverflow)) ∨
    (s.engine.mode = .ready ∧ s.engine.src.toNat + 64 ≤ 2 ^ 64 ∧
      s.sideEffects s.engine.src.toNat 64 = true ∧ exec .compress s = .refused .sideEffectingInput) ∨
    (s.engine.mode = .ready ∧ s.engine.src.toNat + 64 ≤ 2 ^ 64 ∧
      s.sideEffects s.engine.src.toNat 64 = false ∧ (∃ i < 64, s.admits (s.engine.src.toNat + i) = false) ∧
      exec .compress s = .next (s.raise .busError)) ∨
    (s.engine.mode = .ready ∧ s.engine.src.toNat + 64 ≤ 2 ^ 64 ∧ s.inputReadable 64 ∧
      exec .compress s = .next
        (s.finishCompress ((List.range 64).map (fun i => s.inputByte (s.engine.src.toNat + i))))) := by
  show _ ∨ _ ∨ _ ∨ _ ∨ _
  by_cases hr : s.engine.ready = false
  · exact .inl ⟨Engine.ready_eq_false.mp hr, by simp [exec, execCompress, hr]⟩
  have hm : s.engine.mode = .ready := Engine.ready_eq_true.mp (by simpa using hr)
  by_cases ho : s.engine.rangeOverflows 64 = true
  · exact .inr (.inl ⟨hm, Engine.rangeOverflows_iff.mp ho, by simp [exec, execCompress, hr, ho]⟩)
  have hle : s.engine.src.toNat + 64 ≤ 2 ^ 64 := by rw [Engine.rangeOverflows_iff] at ho; omega
  rcases s.readInput_cases 64 with ⟨h1, h2⟩ | ⟨h1, h2, h3⟩ | ⟨h1, h2⟩
  · exact .inr (.inr (.inl ⟨hm, hle, h1, by simp [exec, execCompress, hr, ho, h2]⟩))
  · exact .inr (.inr (.inr (.inl ⟨hm, hle, h1, h2, by simp [exec, execCompress, hr, ho, h3]⟩)))
  · exact .inr (.inr (.inr (.inr ⟨hm, hle, h1, by simp [exec, execCompress, hr, ho, h2]⟩)))

/-- The six outcomes of DIGEST, in the order of R166, and when each is the one. -/
theorem exec_digest_cases (s : State) :
    (s.engine.mode = .uninit ∧ exec .digest s = .next (s.raiseDigest .notReady)) ∨
    (s.engine.mode = .ready ∧ 2 ^ 61 ≤ s.engine.len.toNat ∧
      exec .digest s = .next (s.raiseDigest .inputTooLarge)) ∨
    (s.engine.mode = .ready ∧ s.engine.len.toNat < 2 ^ 61 ∧
      2 ^ 64 < s.engine.src.toNat + s.engine.len.toNat ∧
      exec .digest s = .next (s.raiseDigest .addrOverflow)) ∨
    (s.engine.mode = .ready ∧ s.engine.len.toNat < 2 ^ 61 ∧
      s.engine.src.toNat + s.engine.len.toNat ≤ 2 ^ 64 ∧
      s.sideEffects s.engine.src.toNat s.engine.len.toNat = true ∧
      exec .digest s = .refused .sideEffectingInput) ∨
    (s.engine.mode = .ready ∧ s.engine.len.toNat < 2 ^ 61 ∧
      s.engine.src.toNat + s.engine.len.toNat ≤ 2 ^ 64 ∧
      s.sideEffects s.engine.src.toNat s.engine.len.toNat = false ∧
      (∃ i < s.engine.len.toNat, s.admits (s.engine.src.toNat + i) = false) ∧
      exec .digest s = .next (s.raiseDigest .busError)) ∨
    (s.engine.mode = .ready ∧ s.engine.len.toNat < 2 ^ 61 ∧
      s.engine.src.toNat + s.engine.len.toNat ≤ 2 ^ 64 ∧ s.inputReadable s.engine.len.toNat ∧
      exec .digest s = .next (s.finishDigest
        ((List.range s.engine.len.toNat).map (fun i => s.inputByte (s.engine.src.toNat + i))))) := by
  by_cases hr : s.engine.ready = false
  · exact .inl ⟨Engine.ready_eq_false.mp hr, by simp [exec, execDigest, hr]⟩
  have hm : s.engine.mode = .ready := Engine.ready_eq_true.mp (by simpa using hr)
  by_cases hl : s.engine.lengthTooLarge = true
  · exact .inr (.inl ⟨hm, Engine.lengthTooLarge_iff.mp hl, by simp [exec, execDigest, hr, hl]⟩)
  have hlt : s.engine.len.toNat < 2 ^ 61 := by rw [Engine.lengthTooLarge_iff] at hl; omega
  by_cases ho : s.engine.rangeOverflows s.engine.len.toNat = true
  · exact .inr (.inr (.inl ⟨hm, hlt, Engine.rangeOverflows_iff.mp ho, by simp [exec, execDigest, hr, hl, ho]⟩))
  have hle : s.engine.src.toNat + s.engine.len.toNat ≤ 2 ^ 64 := by
    rw [Engine.rangeOverflows_iff] at ho; omega
  rcases s.readInput_cases s.engine.len.toNat with ⟨h1, h2⟩ | ⟨h1, h2, h3⟩ | ⟨h1, h2⟩
  · exact .inr (.inr (.inr (.inl ⟨hm, hlt, hle, h1, by simp [exec, execDigest, hr, hl, ho, h2]⟩)))
  · exact .inr (.inr (.inr (.inr (.inl ⟨hm, hlt, hle, h1, h2, by simp [exec, execDigest, hr, hl, ho, h3]⟩))))
  · exact .inr (.inr (.inr (.inr (.inr ⟨hm, hlt, hle, h1, by simp [exec, execDigest, hr, hl, ho, h2]⟩))))

/-- Readable and quiet input, nothing wrong: what COMPRESS compresses is what memory holds. -/
theorem exec_compress_stable {s : State} (hm : s.engine.mode = .ready)
    (hle : s.engine.src.toNat + 64 ≤ 2 ^ 64) (hr : s.inputReadable 64) (hq : s.inputStable 64) :
    exec .compress s = .next (s.finishCompress (memBytes s.mem s.engine.src.toNat 64)) := by
  have h1 : s.engine.ready = true := Engine.ready_eq_true.mpr hm
  have h2 : s.engine.rangeOverflows 64 = false := by simpa [Engine.rangeOverflows] using hle
  simp [exec, execCompress, h1, h2, State.readInput_stable hr hq]

theorem exec_digest_stable {s : State} (hm : s.engine.mode = .ready) (hlt : s.engine.len.toNat < 2 ^ 61)
    (hle : s.engine.src.toNat + s.engine.len.toNat ≤ 2 ^ 64) (hr : s.inputReadable s.engine.len.toNat)
    (hq : s.inputStable s.engine.len.toNat) :
    exec .digest s = .next (s.finishDigest (memBytes s.mem s.engine.src.toNat s.engine.len.toNat)) := by
  have h1 : s.engine.ready = true := Engine.ready_eq_true.mpr hm
  have h2 : s.engine.rangeOverflows s.engine.len.toNat = false := by
    simpa [Engine.rangeOverflows] using hle
  have h3 : s.engine.lengthTooLarge = false := by simpa [Engine.lengthTooLarge] using hlt
  simp [exec, execDigest, h1, h2, h3, State.readInput_stable hr hq]

/-! ## All instructions -/

/-- An instruction that runs a command has that command word's meaning (R86, R100). -/
theorem exec_of_commandOf {i : Instr} {c : Command} (h : commandOf i = some c) (s : State) :
    exec i s = exec (commandInstr c) s := by
  cases i <;> simp only [commandOf, Option.some.injEq, reduceCtorEq] at h
  case wrCmd w =>
    subst h
    simp only [exec, execWrCmd]
    cases decodeCommand w <;> rfl
  all_goals (subst h; rfl)

/-- Everything an instruction that runs no command can do. -/
theorem exec_register_cases {i : Instr} (h : commandOf i = none) (s : State) :
    (∃ v, exec i s = .next (s.respond v)) ∨ exec i s = .next s ∨
    (∃ v, i = .wrSrcLo v ∧ exec i s = .next (s.setEngine (s.engine.setSrcLo v))) ∨
    (∃ v, i = .wrSrcHi v ∧ exec i s = .next (s.setEngine (s.engine.setSrcHi v))) ∨
    (∃ v, i = .wrLenLo v ∧ exec i s = .next (s.setEngine (s.engine.setLenLo v))) ∨
    (∃ v, i = .wrLenHi v ∧ exec i s = .next (s.setEngine (s.engine.setLenHi v))) := by
  cases i <;> simp only [commandOf, reduceCtorEq] at h
  case wrSrcLo v => exact .inr (.inr (.inl ⟨v, rfl, rfl⟩))
  case wrSrcHi v => exact .inr (.inr (.inr (.inl ⟨v, rfl, rfl⟩)))
  case wrLenLo v => exact .inr (.inr (.inr (.inr (.inl ⟨v, rfl, rfl⟩))))
  case wrLenHi v => exact .inr (.inr (.inr (.inr (.inr ⟨v, rfl, rfl⟩))))
  all_goals first
    | exact .inl ⟨_, rfl⟩
    | exact .inr (.inl rfl)

/-- Everything a next state of `exec` can be: a register access, RESET, ILLEGAL, an error, a success. -/
theorem exec_next_cases {i : Instr} {s t : State} (h : exec i s = .next t) :
    (commandOf i = none ∧ ((∃ v, t = s.respond v) ∨ t = s ∨
      (∃ v, i = .wrSrcLo v ∧ t = s.setEngine (s.engine.setSrcLo v)) ∨
      (∃ v, i = .wrSrcHi v ∧ t = s.setEngine (s.engine.setSrcHi v)) ∨
      (∃ v, i = .wrLenLo v ∧ t = s.setEngine (s.engine.setLenLo v)) ∨
      (∃ v, i = .wrLenHi v ∧ t = s.setEngine (s.engine.setLenHi v)))) ∨
    (commandOf i = some .reset ∧
      t = s.setEngine (((s.engine.setHash initialHash).setMode .ready).setErr .ok)) ∨
    ((∃ rsv op, commandOf i = some (.illegal rsv op)) ∧ t = s.raise .illegalCmd) ∨
    (commandOf i = some .compress ∧
      ((s.engine.mode = .uninit ∧ t = s.raise .notReady) ∨
        (s.engine.mode = .ready ∧ (t = s.raise .addrOverflow ∨ t = s.raise .busError ∨
          t = s.finishCompress
            ((List.range 64).map (fun j => s.inputByte (s.engine.src.toNat + j))))))) ∨
    (commandOf i = some .digest ∧
      ((s.engine.mode = .uninit ∧ t = s.raiseDigest .notReady) ∨
        (s.engine.mode = .ready ∧ (t = s.raiseDigest .inputTooLarge ∨ t = s.raiseDigest .addrOverflow ∨
          t = s.raiseDigest .busError ∨
          t = s.finishDigest
            ((List.range s.engine.len.toNat).map (fun j => s.inputByte (s.engine.src.toNat + j))))))) := by
  have inj : ∀ {a b : State}, (Host.Outcome.next a : Host.Outcome State Fault Refusal) = .next b → b = a :=
    fun h => by injection h with h; exact h.symm
  cases hc : commandOf i with
  | none =>
    refine .inl ⟨rfl, ?_⟩
    rcases exec_register_cases hc s with ⟨v, hx⟩ | hx | ⟨v, hi, hx⟩ | ⟨v, hi, hx⟩ | ⟨v, hi, hx⟩ | ⟨v, hi, hx⟩ <;>
      have ht := inj (hx.symm.trans h)
    · exact .inl ⟨v, ht⟩
    · exact .inr (.inl ht)
    · exact .inr (.inr (.inl ⟨v, hi, ht⟩))
    · exact .inr (.inr (.inr (.inl ⟨v, hi, ht⟩)))
    · exact .inr (.inr (.inr (.inr (.inl ⟨v, hi, ht⟩))))
    · exact .inr (.inr (.inr (.inr (.inr ⟨v, hi, ht⟩))))
  | some c =>
    rw [exec_of_commandOf hc] at h
    cases c with
    | reset => exact .inr (.inl ⟨rfl, inj h⟩)
    | illegal rsv op => exact .inr (.inr (.inl ⟨⟨rsv, op, rfl⟩, inj h⟩))
    | compress =>
      refine .inr (.inr (.inr (.inl ⟨rfl, ?_⟩)))
      rcases exec_compress_cases s with ⟨hm, hx⟩ | ⟨hm, -, hx⟩ | ⟨-, -, -, hx⟩ | ⟨hm, -, -, -, hx⟩ |
        ⟨hm, -, -, hx⟩ <;> have ht := hx.symm.trans h
      · exact .inl ⟨hm, inj ht⟩
      · exact .inr ⟨hm, .inl (inj ht)⟩
      · cases ht
      · exact .inr ⟨hm, .inr (.inl (inj ht))⟩
      · exact .inr ⟨hm, .inr (.inr (inj ht))⟩
    | digest =>
      refine .inr (.inr (.inr (.inr ⟨rfl, ?_⟩)))
      rcases exec_digest_cases s with ⟨hm, hx⟩ | ⟨hm, -, hx⟩ | ⟨hm, -, -, hx⟩ | ⟨-, -, -, -, hx⟩ |
        ⟨hm, -, -, -, -, hx⟩ | ⟨hm, -, -, -, hx⟩ <;> have ht := hx.symm.trans h
      · exact .inl ⟨hm, inj ht⟩
      · exact .inr ⟨hm, .inl (inj ht)⟩
      · exact .inr ⟨hm, .inr (.inl (inj ht))⟩
      · cases ht
      · exact .inr ⟨hm, .inr (.inr (.inl (inj ht)))⟩
      · exact .inr ⟨hm, .inr (.inr (.inr (inj ht)))⟩

/-- What no instruction changes: everything outside the addressed engine, `returned` and `draws`. -/
theorem exec_frame {i : Instr} {s t : State} (h : exec i s = .next t) :
    t.regBase = s.regBase ∧ t.others = s.others ∧ t.mem = s.mem ∧ t.regions = s.regions ∧
      t.inFlight = s.inFlight ∧ t.pending = s.pending := by
  rcases exec_next_cases h with ⟨-, ⟨v, rfl⟩ | rfl | ⟨v, -, rfl⟩ | ⟨v, -, rfl⟩ | ⟨v, -, rfl⟩ | ⟨v, -, rfl⟩⟩ |
    ⟨-, rfl⟩ | ⟨-, rfl⟩ | ⟨-, ⟨-, rfl⟩ | ⟨-, rfl | rfl | rfl⟩⟩ |
    ⟨-, ⟨-, rfl⟩ | ⟨-, rfl | rfl | rfl | rfl⟩⟩ <;>
    simp

end Sys2Proof.Machine
end

