-- ==== Sys2Proof/Laws/Pad.lean ====
section
/-! SUPPORT. Lengths and places in the padded string and its blocks (R141 to R143). -/

namespace Sys2Proof.Machine

@[simp] theorem be64bytes_length (v : Nat) : (be64bytes v).length = 8 := by simp [be64bytes]

theorem padZeros_le (n : Nat) : padZeros n ≤ 63 := by
  unfold padZeros
  omega

/-- The padding fills the last block. -/
theorem padZeros_fills (n : Nat) : (n + 1 + padZeros n + 8) % 64 = 0 := by
  unfold padZeros
  omega

theorem padZeros_of_le {n : Nat} (h : n % 64 ≤ 55) : padZeros n = 55 - n % 64 := by
  unfold padZeros
  omega

theorem padZeros_of_gt {n : Nat} (h : 56 ≤ n % 64) : padZeros n = 119 - n % 64 := by
  unfold padZeros
  omega

@[simp] theorem pad_length (d : List Byte) : (pad d).length = d.length + 1 + padZeros d.length + 8 := by
  simp only [pad, List.length_append, List.length_replicate, be64bytes_length]
  rfl

@[simp] theorem blocks_length (p : List Byte) : (blocks p).length = p.length / 64 := by simp [blocks]

/-- Byte `j` of the length field is bits `63-8j : 56-8j` of the bit count (R10). -/
theorem be64bytes_getD {v j : Nat} (h : j < 8) :
    (be64bytes v).getD j 0 = BitVec.ofNat 8 (v / 2 ^ (56 - 8 * j)) := by
  simp [be64bytes, List.getD_eq_getElem?_getD, h]

/-- A full block is cut out of a string that starts with it. -/
theorem blocks_append {b p : List Byte} (h : b.length = 64) : blocks (b ++ p) = b :: blocks p := by
  have hl : (b ++ p).length / 64 = p.length / 64 + 1 := by
    rw [List.length_append, h]
    omega
  unfold blocks
  rw [hl, List.range_succ_eq_map, List.map_cons, List.map_map]
  congr 1
  · rw [Nat.mul_zero, List.drop_zero, ← h, List.take_left]
  · apply List.map_congr_left
    intro k _
    have : 64 * Nat.succ k = b.length + 64 * k := by
      rw [h]
      omega
    rw [Function.comp_apply, this, List.drop_append, List.drop_of_length_le (Nat.le_add_right _ _),
      Nat.add_sub_cancel_left, List.nil_append]

@[simp] theorem blocks_nil : blocks [] = [] := (rfl)

/-- A string of one block. -/
theorem blocks_singleton {b : List Byte} (h : b.length = 64) : blocks b = [b] := by
  have := blocks_append (b := b) (p := []) h
  rwa [List.append_nil, blocks_nil] at this

end Sys2Proof.Machine
end

