-- ==== Sys2Proof/Laws/PerInstr.lean ====
section
/-! SUPPORT. Per instruction: every well-formed instruction has bits in the opcode table's numbering, of the
length the table gives its row, that decode to it (R81 to R85; the data word of a write: log 2). -/

namespace Sys2Proof.Laws.TableEncoding

/-- The length in whole bytes of an instruction's bits: format C has 32; format BUS 16, or 48 with the data word
of a write. -/
def bitLength : Instr → Nat
  | .reset => 32
  | .compress => 32
  | .digest => 32
  | .illegal _ _ => 32
  | .rdCmd => 16
  | .wrCmd _ => 48
  | .rdStatus => 16
  | .wrStatus _ => 48
  | .rdSrcLo => 16
  | .wrSrcLo _ => 48
  | .rdSrcHi => 16
  | .wrSrcHi _ => 48
  | .rdLenLo => 16
  | .wrLenLo _ => 48
  | .rdLenHi => 16
  | .wrLenHi _ => 48
  | .rd0x18 => 16
  | .wr0x18 _ => 48
  | .rd0x1C => 16
  | .wr0x1C _ => 48
  | .rdDout0 => 16
  | .wrDout0 _ => 48
  | .rdDout1 => 16
  | .wrDout1 _ => 48
  | .rdDout2 => 16
  | .wrDout2 _ => 48
  | .rdDout3 => 16
  | .wrDout3 _ => 48
  | .rdDout4 => 16
  | .wrDout4 _ => 48
  | .rdDout5 => 16
  | .wrDout5 _ => 48
  | .rdDout6 => 16
  | .wrDout6 _ => 48
  | .rdDout7 => 16
  | .wrDout7 _ => 48

def Statement (i : Instr) : Prop := wellFormed i = true → ∃ w, decodeTableWord (bitLength i) w = some i

theorem tableRequest_command (c : Word) : tableRequest 32 c.toNat = .command c := by
  rw [tableRequest, if_pos (by decide), BitVec.ofNat_toNat, BitVec.setWidth_eq]

theorem tableRequest_write {offset : Nat} (h : offset < 256) (v : Word) :
    tableRequest 48 (offset + 256 + 65536 * v.toNat) = .write offset 4 v := by
  have hv := v.isLt
  have hd : (offset + 256 + 65536 * v.toNat) / 65536 = v.toNat := by omega
  rw [tableRequest, if_neg (by decide), if_pos (by omega), hd, BitVec.ofNat_toNat, BitVec.setWidth_eq]
  congr 1
  omega

theorem reset : Statement .reset := fun _ => ⟨1, rfl⟩
theorem compress : Statement .compress := fun _ => ⟨2, rfl⟩
theorem digest : Statement .digest := fun _ => ⟨3, rfl⟩

theorem illegal (rsv : BitVec 28) (op : BitVec 4) : Statement (.illegal rsv op) := by
  intro h
  refine ⟨(rsv ++ op).toNat, ?_⟩
  have fields : ∀ n : Word, rsvField n = 0 → (opField n = 1 ∨ opField n = 2 ∨ opField n = 3) → rsv ++ op ≠ n := by
    rintro n hr ho rfl
    rw [rsvField_append] at hr
    rw [opField_append] at ho
    rcases ho with rfl | rfl | rfl <;> simp [wellFormed, isLegalCommand, hr] at h
  rw [bitLength, decodeTableWord, tableRequest_command, decode,
    decodeCommand_illegal (fields 1 (by decide) (by decide)) (fields 2 (by decide) (by decide))
      (fields 3 (by decide) (by decide)), rsvField_append, opField_append]
  rfl

theorem rdCmd : Statement .rdCmd := fun _ => ⟨0x000, rfl⟩
theorem wrCmd (v : Word) : Statement (.wrCmd v) := fun _ =>
  ⟨0x00 + 256 + 65536 * v.toNat, by rw [bitLength, decodeTableWord, tableRequest_write (by omega)]; rfl⟩
theorem rdStatus : Statement .rdStatus := fun _ => ⟨0x004, rfl⟩
theorem wrStatus (v : Word) : Statement (.wrStatus v) := fun _ =>
  ⟨0x04 + 256 + 65536 * v.toNat, by rw [bitLength, decodeTableWord, tableRequest_write (by omega)]; rfl⟩
theorem rdSrcLo : Statement .rdSrcLo := fun _ => ⟨0x008, rfl⟩
theorem wrSrcLo (v : Word) : Statement (.wrSrcLo v) := fun _ =>
  ⟨0x08 + 256 + 65536 * v.toNat, by rw [bitLength, decodeTableWord, tableRequest_write (by omega)]; rfl⟩
theorem rdSrcHi : Statement .rdSrcHi := fun _ => ⟨0x00C, rfl⟩
theorem wrSrcHi (v : Word) : Statement (.wrSrcHi v) := fun _ =>
  ⟨0x0C + 256 + 65536 * v.toNat, by rw [bitLength, decodeTableWord, tableRequest_write (by omega)]; rfl⟩
theorem rdLenLo : Statement .rdLenLo := fun _ => ⟨0x010, rfl⟩
theorem wrLenLo (v : Word) : Statement (.wrLenLo v) := fun _ =>
  ⟨0x10 + 256 + 65536 * v.toNat, by rw [bitLength, decodeTableWord, tableRequest_write (by omega)]; rfl⟩
theorem rdLenHi : Statement .rdLenHi := fun _ => ⟨0x014, rfl⟩
theorem wrLenHi (v : Word) : Statement (.wrLenHi v) := fun _ =>
  ⟨0x14 + 256 + 65536 * v.toNat, by rw [bitLength, decodeTableWord, tableRequest_write (by omega)]; rfl⟩
theorem rd0x18 : Statement .rd0x18 := fun _ => ⟨0x018, rfl⟩
theorem wr0x18 (v : Word) : Statement (.wr0x18 v) := fun _ =>
  ⟨0x18 + 256 + 65536 * v.toNat, by rw [bitLength, decodeTableWord, tableRequest_write (by omega)]; rfl⟩
theorem rd0x1C : Statement .rd0x1C := fun _ => ⟨0x01C, rfl⟩
theorem wr0x1C (v : Word) : Statement (.wr0x1C v) := fun _ =>
  ⟨0x1C + 256 + 65536 * v.toNat, by rw [bitLength, decodeTableWord, tableRequest_write (by omega)]; rfl⟩
theorem rdDout0 : Statement .rdDout0 := fun _ => ⟨0x020, rfl⟩
theorem wrDout0 (v : Word) : Statement (.wrDout0 v) := fun _ =>
  ⟨0x20 + 256 + 65536 * v.toNat, by rw [bitLength, decodeTableWord, tableRequest_write (by omega)]; rfl⟩
theorem rdDout1 : Statement .rdDout1 := fun _ => ⟨0x024, rfl⟩
theorem wrDout1 (v : Word) : Statement (.wrDout1 v) := fun _ =>
  ⟨0x24 + 256 + 65536 * v.toNat, by rw [bitLength, decodeTableWord, tableRequest_write (by omega)]; rfl⟩
theorem rdDout2 : Statement .rdDout2 := fun _ => ⟨0x028, rfl⟩
theorem wrDout2 (v : Word) : Statement (.wrDout2 v) := fun _ =>
  ⟨0x28 + 256 + 65536 * v.toNat, by rw [bitLength, decodeTableWord, tableRequest_write (by omega)]; rfl⟩
theorem rdDout3 : Statement .rdDout3 := fun _ => ⟨0x02C, rfl⟩
theorem wrDout3 (v : Word) : Statement (.wrDout3 v) := fun _ =>
  ⟨0x2C + 256 + 65536 * v.toNat, by rw [bitLength, decodeTableWord, tableRequest_write (by omega)]; rfl⟩
theorem rdDout4 : Statement .rdDout4 := fun _ => ⟨0x030, rfl⟩
theorem wrDout4 (v : Word) : Statement (.wrDout4 v) := fun _ =>
  ⟨0x30 + 256 + 65536 * v.toNat, by rw [bitLength, decodeTableWord, tableRequest_write (by omega)]; rfl⟩
theorem rdDout5 : Statement .rdDout5 := fun _ => ⟨0x034, rfl⟩
theorem wrDout5 (v : Word) : Statement (.wrDout5 v) := fun _ =>
  ⟨0x34 + 256 + 65536 * v.toNat, by rw [bitLength, decodeTableWord, tableRequest_write (by omega)]; rfl⟩
theorem rdDout6 : Statement .rdDout6 := fun _ => ⟨0x038, rfl⟩
theorem wrDout6 (v : Word) : Statement (.wrDout6 v) := fun _ =>
  ⟨0x38 + 256 + 65536 * v.toNat, by rw [bitLength, decodeTableWord, tableRequest_write (by omega)]; rfl⟩
theorem rdDout7 : Statement .rdDout7 := fun _ => ⟨0x03C, rfl⟩
theorem wrDout7 (v : Word) : Statement (.wrDout7 v) := fun _ =>
  ⟨0x3C + 256 + 65536 * v.toNat, by rw [bitLength, decodeTableWord, tableRequest_write (by omega)]; rfl⟩

end Sys2Proof.Laws.TableEncoding
end

