-- ==== Sys2Proof/Laws/Pseudo.lean ====
section
/-! SUPPORT. Sequences of instructions one host issues to one window (R87): how a sequence is cut into parts, and
what the two writes of SETSRC and SETLEN leave. -/

namespace Sys2Proof.Machine

theorem execAll_cons_next {i : Instr} {s t : State} (h : exec i s = .next t) (l : List Instr) :
    execAll (i :: l) s = execAll l t := by
  simp only [execAll, h]

theorem execAll_append_next {l : List Instr} {s t : State} (h : execAll l s = .next t) (m : List Instr) :
    execAll (l ++ m) s = execAll m t := by
  induction l generalizing s with
  | nil =>
    cases h
    rfl
  | cons i l ih =>
    simp only [execAll, List.cons_append] at h ⊢
    cases hx : exec i s with
    | next u =>
      rw [hx] at h
      exact ih h
    | fault r =>
      rw [hx] at h
      cases h
    | refused r =>
      rw [hx] at h
      cases h

theorem execAll_setSrc (a : Addr) (s : State) : execAll (setSrc a) s = .next { s with
    engine := { s.engine with srcLo := a.extractLsb' 0 32, srcHi := a.extractLsb' 32 32 } } := (rfl)

theorem execAll_setLen (n : BitVec 64) (s : State) : execAll (setLen n) s = .next { s with
    engine := { s.engine with lenLo := n.extractLsb' 0 32, lenHi := n.extractLsb' 32 32 } } := (rfl)

/-- A range inside one that touches no side-effecting region touches none either. -/
theorem State.sideEffects_mono {s : State} {a n b m : Nat} (h : s.sideEffects a n = false) (hb : a ≤ b)
    (hm : b + m ≤ a + n) : s.sideEffects b m = false := by
  simp only [State.sideEffects, List.any_eq_false, Region.meets, Bool.and_eq_true, decide_eq_true_eq, not_and] at h ⊢
  intro r hr hk
  have := h r hr hk
  omega

/-- With no write under way every input is quiet. -/
theorem State.inputStable_of_inFlight (s : State) (h : s.inFlight = []) (n : Nat) : s.inputStable n := by
  intro i _
  unfold State.racing
  rw [h]
  rfl

/-- The premise of a command's input, from another state with the same memory map. -/
theorem State.inputReadable_of_regions {s t : State} {n : Nat} (x : Nat) (hr : t.regions = s.regions)
    (hx : t.engine.src.toNat = x) (h : s.sideEffects x n = false) (ha : ∀ i < n, s.admits (x + i) = true) :
    t.inputReadable n := by
  subst hx
  unfold State.inputReadable State.sideEffects State.admits
  rw [hr]
  exact ⟨h, ha⟩

end Sys2Proof.Machine
end

