-- ==== Sys2Proof/Laws/Sha.lean ====
section
/-! SUPPORT. The message schedule and the rounds, index by index (R127 to R131). -/

namespace Sys2Proof.Machine

/-! ## Message schedule -/

@[simp] theorem messageWords_length (b : List Byte) : (messageWords b).length = 16 := by simp [messageWords]

@[simp] theorem extendSchedule_length (n : Nat) (ws : List Word) :
    (extendSchedule n ws).length = ws.length + n := by
  induction n generalizing ws with
  | zero => rfl
  | succ n ih =>
    rw [extendSchedule, ih, List.length_cons]
    omega

@[simp] theorem schedule_length (b : List Byte) : (schedule b).length = 64 := by simp [schedule]

/-- Later words leave the earlier ones. -/
theorem extendSchedule_getD_old {n : Nat} {ws : List Word} {t : Nat} (h : t < ws.length) :
    (extendSchedule n ws).reverse.getD t 0 = ws.reverse.getD t 0 := by
  induction n generalizing ws with
  | zero => rfl
  | succ n ih =>
    rw [extendSchedule, ih (by simp; omega), List.reverse_cons]
    simp [List.getD_eq_getElem?_getD, List.getElem?_append_left, h]

/-- The words of a block come first (R127). -/
theorem schedule_getD_block {b : List Byte} {t : Nat} (h : t < 16) : (schedule b).getD t 0 = be32 b (4 * t) := by
  rw [schedule, extendSchedule_getD_old (by simpa using h), List.reverse_reverse]
  simp [messageWords, List.getD_eq_getElem?_getD, h]

theorem getD_reverse {ws : List Word} {k : Nat} (h : k < ws.length) :
    ws.reverse.getD (ws.length - 1 - k) 0 = ws.getD k 0 := by
  rw [List.getD_eq_getElem?_getD, List.getD_eq_getElem?_getD, List.getElem?_reverse (by omega)]
  congr 2
  omega

/-- Every added word is `nextScheduleWord` of the words before it. -/
theorem extendSchedule_getD_new {n : Nat} {ws : List Word} {t : Nat} (h16 : 16 ≤ ws.length)
    (h : ws.length ≤ t) (ht : t < ws.length + n) :
    let r := (extendSchedule n ws).reverse
    r.getD t 0 = r.getD (t - 16) 0 + smallSigma0 (r.getD (t - 15) 0) + r.getD (t - 7) 0 +
      smallSigma1 (r.getD (t - 2) 0) := by
  induction n generalizing ws with
  | zero => omega
  | succ n ih =>
    by_cases he : t = ws.length
    · have old : ∀ k, k < ws.length →
          (extendSchedule (n + 1) ws).reverse.getD (ws.length - 1 - k) 0 = ws.getD k 0 := fun k hk => by
        rw [extendSchedule_getD_old (by omega), getD_reverse hk]
      have new : (extendSchedule (n + 1) ws).reverse.getD ws.length 0 = nextScheduleWord ws := by
        rw [extendSchedule, extendSchedule_getD_old (by simp)]
        simp [List.getD_eq_getElem?_getD]
      subst he
      intro r
      rw [show ws.length - 16 = ws.length - 1 - 15 by omega, show ws.length - 15 = ws.length - 1 - 14 by omega,
        show ws.length - 7 = ws.length - 1 - 6 by omega, show ws.length - 2 = ws.length - 1 - 1 by omega,
        old 15 (by omega), old 14 (by omega), old 6 (by omega), old 1 (by omega), new, nextScheduleWord]
    · exact ih (ws := nextScheduleWord ws :: ws) (by simp; omega) (by simp; omega) (by simp; omega)

/-! ## Rounds -/

theorem WorkingSet.rounds_append (v : WorkingSet) (l m : List (Word × Word)) :
    v.rounds (l ++ m) = (v.rounds l).rounds m := by
  simp [WorkingSet.rounds, List.foldl_append]

theorem roundConstants_length : roundConstants.length = 64 := (rfl)

/-- The rounds one by one: before round `t` the first `t` pairs (K[t], W[t]) have been used. -/
theorem workingSetBefore_eq_rounds {h : HashState} {b : List Byte} {t : Nat} (ht : t ≤ 64) :
    workingSetBefore h b t = h.toWorkingSet.rounds ((roundConstants.zip (schedule b)).take t) := by
  have hl : (roundConstants.zip (schedule b)).length = 64 := by
    rw [List.length_zip, roundConstants_length, schedule_length]
    rfl
  induction t with
  | zero => rfl
  | succ t ih =>
    have hlt : t < (roundConstants.zip (schedule b)).length := by omega
    have hk : t < roundConstants.length := by rw [roundConstants_length]; omega
    have hw : t < (schedule b).length := by rw [schedule_length]; omega
    rw [List.take_add_one, List.getElem?_eq_getElem hlt, Option.toList_some, WorkingSet.rounds_append,
      ← ih (by omega), List.getElem_zip, workingSetBefore]
    simp only [List.getD_eq_getElem?_getD, List.getElem?_eq_getElem hk, List.getElem?_eq_getElem hw,
      Option.getD_some]
    rfl

/-- The working set the add-back uses is the one before a 65th round would run (R130). -/
theorem finalWorkingSet_eq (h : HashState) (b : List Byte) : finalWorkingSet h b = workingSetBefore h b 64 := by
  rw [workingSetBefore_eq_rounds (Nat.le_refl 64), finalWorkingSet, List.take_of_length_le]
  rw [List.length_zip, roundConstants_length, schedule_length]
  exact Nat.le_refl 64

end Sys2Proof.Machine
end

