-- ==== Sys2Proof/Laws/Step.lean ====
section
/-! SUPPORT. The instances of the platform, and everything a step can do. -/

namespace Sys2Proof.Machine

theorem findInstance_putInstance_other {base b : Nat} {out : Nat × Engine} {l : List (Nat × Engine)}
    (hb : b ≠ base) (ho : b ≠ out.1) : findInstance b (putInstance base out l) = findInstance b l := by
  induction l with
  | nil => rfl
  | cons p l ih =>
    obtain ⟨c, e⟩ := p
    unfold putInstance
    split
    · subst c
      simp [findInstance, Ne.symm hb, Ne.symm ho]
    · simp only [findInstance, ih]

theorem findInstance_putInstance_new {base b : Nat} {e f : Engine} {l : List (Nat × Engine)}
    (hf : findInstance base l = some f) (hn : b ∉ l.map Prod.fst) :
    findInstance b (putInstance base (b, e) l) = some e := by
  induction l with
  | nil => cases hf
  | cons p l ih =>
    obtain ⟨c, g⟩ := p
    simp only [List.map_cons, List.mem_cons, not_or] at hn
    unfold putInstance
    split
    · simp [findInstance]
    · rename_i hc
      simp only [findInstance, if_neg hc] at hf
      simp only [findInstance, if_neg (Ne.symm hn.1)]
      exact ih hf hn.2

/-- What becoming the addressed instance changes, and that it is the instance asked for. -/
theorem State.focus_cases {s t : State} {base : Nat} (h : s.focus base = some t) :
    (s.regBase = base ∧ t = s) ∨
    (s.regBase ≠ base ∧ ∃ e, findInstance base s.others = some e ∧
      t = { s with engine := e, regBase := base,
                   others := putInstance base (s.regBase, s.engine) s.others }) := by
  unfold State.focus at h
  split at h
  · cases h
    exact .inl ⟨‹_›, rfl⟩
  · split at h
    · cases h
    · cases h
      exact .inr ⟨‹_›, _, ‹_›, rfl⟩

theorem State.focus_none {s : State} {base : Nat} : s.focus base = none ↔ s.engineAt base = none := by
  unfold State.focus State.engineAt State.instances
  by_cases hb : s.regBase = base
  · simp [findInstance, hb]
  · simp only [findInstance, if_neg hb]
    cases findInstance base s.others <;> simp

theorem State.focus_engineAt {s t : State} {base : Nat} (h : s.focus base = some t) :
    s.engineAt base = some t.engine ∧ t.regBase = base := by
  rcases State.focus_cases h with ⟨hb, rfl⟩ | ⟨hb, e, he, rfl⟩
  · exact ⟨by simp [State.engineAt, State.instances, findInstance, hb], hb⟩
  · exact ⟨by simp [State.engineAt, State.instances, findInstance, hb, he], rfl⟩

/-- Addressing an instance moves no memory, event or answer. -/
theorem State.focus_frame {s t : State} {base : Nat} (h : s.focus base = some t) :
    t.mem = s.mem ∧ t.regions = s.regions ∧ t.inFlight = s.inFlight ∧ t.pending = s.pending ∧
      t.returned = s.returned ∧ t.draws = s.draws := by
  rcases State.focus_cases h with ⟨_, rfl⟩ | ⟨_, e, _, rfl⟩ <;> exact ⟨rfl, rfl, rfl, rfl, rfl, rfl⟩

theorem State.focus_other {s t : State} {base b : Nat} (h : s.focus base = some t) (hb : b ≠ base)
    (hn : (s.instances.map Prod.fst).Nodup) : t.engineAt b = s.engineAt b := by
  rcases State.focus_cases h with ⟨_, rfl⟩ | ⟨hr, e, he, rfl⟩
  · rfl
  · simp only [State.instances, List.map_cons, List.nodup_cons] at hn
    simp only [State.engineAt, State.instances, findInstance, if_neg (Ne.symm hb)]
    by_cases hs : s.regBase = b
    · subst hs
      rw [if_pos rfl]
      exact findInstance_putInstance_new he hn.1
    · rw [if_neg hs]
      exact findInstance_putInstance_other hb (Ne.symm hs)

theorem putInstance_map_fst_mem {base c : Nat} {out : Nat × Engine} {l : List (Nat × Engine)}
    (h : c ∈ (putInstance base out l).map Prod.fst) : c = out.1 ∨ c ∈ l.map Prod.fst := by
  induction l with
  | nil => simp [putInstance] at h
  | cons p l ih =>
    obtain ⟨d, e⟩ := p
    unfold putInstance at h
    split at h
    · rcases List.mem_cons.mp h with h | h
      · exact .inl h
      · exact .inr (List.mem_cons_of_mem _ h)
    · rcases List.mem_cons.mp h with h | h
      · exact .inr (by simp [h])
      · rcases ih h with h | h
        · exact .inl h
        · exact .inr (List.mem_cons_of_mem _ h)

theorem putInstance_nodup {base b : Nat} {e f : Engine} {l : List (Nat × Engine)}
    (hf : findInstance base l = some f) (hb : b ∉ l.map Prod.fst) (hn : (l.map Prod.fst).Nodup) :
    base ∉ (putInstance base (b, e) l).map Prod.fst ∧ ((putInstance base (b, e) l).map Prod.fst).Nodup := by
  induction l with
  | nil => cases hf
  | cons p l ih =>
    obtain ⟨c, g⟩ := p
    simp only [List.map_cons, List.mem_cons, not_or, List.nodup_cons] at hb hn
    unfold putInstance
    split
    · rename_i hc
      subst c
      simp only [List.map_cons, List.mem_cons, not_or, List.nodup_cons]
      exact ⟨⟨Ne.symm hb.1, hn.1⟩, hb.2, hn.2⟩
    · rename_i hc
      simp only [findInstance, if_neg hc] at hf
      obtain ⟨h1, h2⟩ := ih hf hb.2 hn.2
      simp only [List.map_cons, List.mem_cons, not_or, List.nodup_cons]
      refine ⟨⟨Ne.symm hc, h1⟩, fun hm => ?_, h2⟩
      rcases putInstance_map_fst_mem hm with h | h
      · exact hb.1 h.symm
      · exact hn.1 h

theorem findInstance_mem {base : Nat} {e : Engine} {l : List (Nat × Engine)}
    (h : findInstance base l = some e) : (base, e) ∈ l := by
  induction l with
  | nil => cases h
  | cons p l ih =>
    obtain ⟨c, g⟩ := p
    unfold findInstance at h
    split at h
    · cases h
      subst c
      exact List.mem_cons_self
    · exact List.mem_cons_of_mem _ (ih h)

theorem putInstance_mem {base : Nat} {out p : Nat × Engine} {l : List (Nat × Engine)}
    (h : p ∈ putInstance base out l) : p = out ∨ p ∈ l := by
  induction l with
  | nil => cases h
  | cons q l ih =>
    obtain ⟨c, g⟩ := q
    unfold putInstance at h
    split at h
    · rcases List.mem_cons.mp h with h | h
      · exact .inl h
      · exact .inr (List.mem_cons_of_mem _ h)
    · rcases List.mem_cons.mp h with h | h
      · exact .inr (h ▸ List.mem_cons_self)
      · exact (ih h).imp_right (List.mem_cons_of_mem _)

/-- Everything a next state of `step` can be. -/
theorem step_next_cases {s t : State} (h : step s = .next t) :
    (s.pending = [] ∧ t = s) ∨
    (∃ base r rest f i u, s.pending = .request base r :: rest ∧ (s.withPending rest).focus base = some f ∧
      decode r = .ok i ∧ exec i f = .next u ∧ t = u.landWrites) ∨
    (∃ a b rest, s.pending = .memWrite a b :: rest ∧ t = (s.withPending rest).writeByte a b) ∨
    (∃ a b rest, s.pending = .racingWrite a b :: rest ∧ t = (s.withPending rest).startRacing a b) ∨
    (∃ base rest f, s.pending = .hardReset base :: rest ∧ (s.withPending rest).focus base = some f ∧
      t = f.hardReset) := by
  unfold step at h
  split at h
  · cases h
    exact .inl ⟨‹_›, rfl⟩
  · rename_i ev rest hp
    cases ev with
    | request base r =>
      simp only [stepEvent] at h
      split at h
      · cases h
      · rename_i f hf
        unfold stepRequest at h
        split at h
        · cases h
        · rename_i i hi
          unfold afterExec at h
          split at h
          · rename_i u hu
            cases h
            exact .inr (.inl ⟨base, r, rest, f, i, u, hp, hf, hi, hu, rfl⟩)
          · cases h
          · cases h
    | memWrite a b =>
      cases h
      exact .inr (.inr (.inl ⟨a, b, rest, hp, rfl⟩))
    | racingWrite a b =>
      cases h
      exact .inr (.inr (.inr (.inl ⟨a, b, rest, hp, rfl⟩)))
    | hardReset base =>
      simp only [stepEvent] at h
      split at h
      · cases h
      · rename_i f hf
        cases h
        exact .inr (.inr (.inr (.inr ⟨base, rest, f, hp, hf, rfl⟩)))

/-- A request that decodes, to a window of the platform: `exec`, then the overlapped writes land. -/
theorem step_request {s f : State} {base : Nat} {r : Request} {rest : List HostEvent} {i : Instr}
    (hp : s.pending = .request base r :: rest) (hf : (s.withPending rest).focus base = some f)
    (hi : decode r = .ok i) : step s = afterExec (exec i f) := by
  simp [step, hp, stepEvent, hf, stepRequest, hi]

/-- One more step of the machine behind the host's interface. -/
theorem core_run_succ (k : Nat) (s : State) : Sys2Proof.core.run (k + 1) s = (match step s with
    | .next t => Sys2Proof.core.run k t
    | .fault r => .fault r
    | .refused r => .refused r : Host.Outcome State Fault Refusal) := by
  refine (Host.Core.run.eq_2 Sys2Proof.core s k).trans ?_
  have h : Sys2Proof.core.step s = step s := rfl
  cases hs : step s <;> rw [hs] at h <;> rw [h] <;> rfl

end Sys2Proof.Machine
end

