-- ==== Sys2Proof/Tests/Slice0.lean ====
section
/-! SUPPORT. Tests of this model. Expected values are the spec's own: spec/95_test_vectors.md (its numbers stand in
the comments), the encodings of spec/30_encoding.md and spec/opcode_table.json. The second half holds, for each
obligation with hypotheses, a state and operands that meet them. -/

namespace Sys2Proof.Tests.Slice0

open Sys2Proof Sys2Proof.Machine

/-! ## Small states -/

/-- After hardware reset, with the memory map of 95_test_vectors.md section 4: addresses below 0x10000. -/
def platform : State := { State.reset with regions := [⟨0, 0x10000, .idempotent⟩] }

/-- The platform with the given memory, SRC and LEN, still in UNINIT. -/
def fresh (m : Memory) (src len : BitVec 64) : State :=
  { platform with
    mem := m
    engine := { Engine.reset with
      srcLo := src.extractLsb' 0 32, srcHi := src.extractLsb' 32 32,
      lenLo := len.extractLsb' 0 32, lenHi := len.extractLsb' 32 32 } }

/-- The same in READY with H = IV. -/
def ready (m : Memory) (src len : BitVec 64) : State :=
  { fresh m src len with engine := { (fresh m src len).engine with mode := .ready, hash := initialHash } }

/-- `n` bytes 0x61 from `a` on. -/
def lettersA (n a : Nat) : Memory := (List.range n).map (fun i => (a + i, 0x61))

/-- "abc" at `a`. -/
def abcAt (a : Nat) : Memory := [(a, 0x61), (a + 1, 0x62), (a + 2, 0x63)]

/-- The state with these events pending. -/
def asking (s : State) (evs : List HostEvent) : State := s.withPending evs

/-- A second block, in READY, with its window at 0x100. -/
def twoBlocks : State :=
  { platform with others := [(0x100, { Engine.reset with mode := .ready, hash := initialHash })] }

/-- What a next state shows, none for a stop. -/
def shown {α : Type} (f : State → α) : Host.Outcome State Fault Refusal → Option α
  | .next t => some (f t)
  | .fault _ => none
  | .refused _ => none

/-- STATUS after an outcome. -/
def statusAfter (o : Host.Outcome State Fault Refusal) : Option Word := shown (fun t => t.engine.statusWord) o

/-- H after an outcome. -/
def hashAfter (o : Host.Outcome State Fault Refusal) : Option HashState := shown (fun t => t.engine.hash) o

/-- DOUT after an outcome. -/
def doutAfter (o : Host.Outcome State Fault Refusal) : Option HashState := shown (fun t => t.engine.dout) o

/-- What the reads have returned after an outcome, oldest first. -/
def answers (o : Host.Outcome State Fault Refusal) : Option (List Word) := shown (fun t => t.returned.reverse) o

/-- The digest of "abc" (S2, C-5). -/
def abcDigest : HashState :=
  ⟨0xba7816bf, 0x8f01cfea, 0x414140de, 0x5dae2223, 0xb00361a3, 0x96177a9c, 0xb410ff61, 0xf20015ad⟩

/-- The digest of the empty message (S1). -/
def emptyDigest : HashState :=
  ⟨0xe3b0c442, 0x98fc1c14, 0x9afbf4c8, 0x996fb924, 0x27ae41e4, 0x649b934c, 0xa495991b, 0x7852b855⟩

/-- 64 bytes 0x61 compressed from IV (C-4). -/
def lettersBlock : HashState :=
  ⟨0xdf5bb81c, 0xe81e0626, 0xfb45a894, 0x4fd40f31, 0xb25e6816, 0xd6d499c1, 0xab904929, 0x00635e66⟩

/-! ## Well-formedness -/

theorem test_wellFormed_refuses_reset_as_illegal : wellFormed (.illegal 0 1) = false := by decide
theorem test_wellFormed_refuses_compress_as_illegal : wellFormed (.illegal 0 2) = false := by decide
theorem test_wellFormed_refuses_digest_as_illegal : wellFormed (.illegal 0 3) = false := by decide
theorem test_wellFormed_accepts_illegal_words :
    wellFormed (.illegal 0 0) = true ∧ wellFormed (.illegal 0 4) = true ∧ wellFormed (.illegal 1 1) = true := by
  decide

/-! ## Decoding: every row, from the words of 30_encoding.md -/

theorem test_decode_command_rows :
    decodeTableWord 32 0x00000001 = some .reset ∧
    decodeTableWord 32 0x00000002 = some .compress ∧
    decodeTableWord 32 0x00000003 = some .digest ∧
    decodeTableWord 32 0x00000000 = some (.illegal 0 0) ∧
    decodeTableWord 32 0x80000003 = some (.illegal 0x8000000 3) ∧
    decodeTableWord 32 0x00000011 = some (.illegal 1 1) := by decide

/-- Bit 8 is `dir`, 0 here; bits 7:0 the offset (R85). -/
theorem test_decode_read_rows :
    decodeTableWord 16 0b000000000 = some .rdCmd ∧
    decodeTableWord 16 0b000000100 = some .rdStatus ∧
    decodeTableWord 16 0b000001000 = some .rdSrcLo ∧
    decodeTableWord 16 0b000001100 = some .rdSrcHi ∧
    decodeTableWord 16 0b000010000 = some .rdLenLo ∧
    decodeTableWord 16 0b000010100 = some .rdLenHi ∧
    decodeTableWord 16 0b000011000 = some .rd0x18 ∧
    decodeTableWord 16 0b000011100 = some .rd0x1C ∧
    decodeTableWord 16 0b000100000 = some .rdDout0 ∧
    decodeTableWord 16 0b000100100 = some .rdDout1 ∧
    decodeTableWord 16 0b000101000 = some .rdDout2 ∧
    decodeTableWord 16 0b000101100 = some .rdDout3 ∧
    decodeTableWord 16 0b000110000 = some .rdDout4 ∧
    decodeTableWord 16 0b000110100 = some .rdDout5 ∧
    decodeTableWord 16 0b000111000 = some .rdDout6 ∧
    decodeTableWord 16 0b000111100 = some .rdDout7 := by decide

/-- Bit 8 is `dir`, 1 here; the data word stands above the 16 bits of the descriptor (log 2). -/
theorem test_decode_write_rows :
    decodeTableWord 48 0xdeadbeef0100 = some (.wrCmd 0xdeadbeef) ∧
    decodeTableWord 48 0xdeadbeef0104 = some (.wrStatus 0xdeadbeef) ∧
    decodeTableWord 48 0xdeadbeef0108 = some (.wrSrcLo 0xdeadbeef) ∧
    decodeTableWord 48 0xdeadbeef010C = some (.wrSrcHi 0xdeadbeef) ∧
    decodeTableWord 48 0xdeadbeef0110 = some (.wrLenLo 0xdeadbeef) ∧
    decodeTableWord 48 0xdeadbeef0114 = some (.wrLenHi 0xdeadbeef) ∧
    decodeTableWord 48 0xdeadbeef0118 = some (.wr0x18 0xdeadbeef) ∧
    decodeTableWord 48 0xdeadbeef011C = some (.wr0x1C 0xdeadbeef) ∧
    decodeTableWord 48 0xdeadbeef0120 = some (.wrDout0 0xdeadbeef) ∧
    decodeTableWord 48 0xdeadbeef0124 = some (.wrDout1 0xdeadbeef) ∧
    decodeTableWord 48 0xdeadbeef0128 = some (.wrDout2 0xdeadbeef) ∧
    decodeTableWord 48 0xdeadbeef012C = some (.wrDout3 0xdeadbeef) ∧
    decodeTableWord 48 0xdeadbeef0130 = some (.wrDout4 0xdeadbeef) ∧
    decodeTableWord 48 0xdeadbeef0134 = some (.wrDout5 0xdeadbeef) ∧
    decodeTableWord 48 0xdeadbeef0138 = some (.wrDout6 0xdeadbeef) ∧
    decodeTableWord 48 0xdeadbeef013C = some (.wrDout7 0xdeadbeef) := by decide

/-- R85, R105: no transactions of this block. -/
theorem test_decode_refuses_undefined_accesses :
    decode (.read 0x02 4) = .error .misaligned ∧ decode (.read 0x40 4) = .error .beyondWindow ∧
    decode (.write 0x00 2 1) = .error .notWordWide ∧ decodeTableWord 16 0x200 = none := by decide

theorem test_step_runs_a_fetched_word :
    statusAfter (step (State.reset.withFetchWord 32 0x00000001)) = some 0x00000001 ∧
    statusAfter (step (State.reset.withFetchWord 16 0x100)) = some 0x00000010 ∧
    answers (step (State.reset.withFetchWord 16 0x004)) = some [0] := by decide +kernel

/-! ## Window accesses -/

/-- E1, E2. -/
theorem test_registers_read_zero_after_reset :
    answers (execAll [.rdStatus, .rdSrcLo, .rdSrcHi, .rdLenLo, .rdLenHi] platform) = some [0, 0, 0, 0, 0] := by
  decide +kernel

/-- E3, E4. -/
theorem test_cmd_and_unmapped_read_zero :
    answers (execAll [.wr0x18 7, .wr0x1C 7, .rdCmd, .rd0x18, .rd0x1C] platform) = some [0, 0, 0] := by decide +kernel

/-- E5. -/
theorem test_status_write_ignored :
    answers (execAll [.wrStatus 0xffffffff, .rdStatus] (ready [] 0 0)) = some [1] := by decide +kernel

/-- E6 and the other halves; LEN's change shows in no STATUS bit. -/
theorem test_src_and_len_read_back :
    answers (execAll [.wrSrcLo 1, .wrSrcHi 2, .wrLenLo 3, .wrLenHi 0xdeadbeef, .rdSrcLo, .rdSrcHi, .rdLenLo, .rdLenHi,
      .rdStatus] platform) = some [1, 2, 3, 0xdeadbeef, 0] := by decide +kernel

/-- E7, for each word of DOUT. -/
theorem test_dout_writes_ignored :
    answers (execAll [.wrDout0 0, .wrDout1 0, .wrDout2 0, .wrDout3 0, .wrDout4 0, .wrDout5 0, .wrDout6 0, .wrDout7 0,
      .rdDout0, .rdDout1, .rdDout2, .rdDout3, .rdDout4, .rdDout5, .rdDout6, .rdDout7]
      ((ready [] 0 0).setEngine ((ready [] 0 0).engine.setDout abcDigest))) =
    some [0xba7816bf, 0x8f01cfea, 0x414140de, 0x5dae2223, 0xb00361a3, 0x96177a9c, 0xb410ff61, 0xf20015ad] := by
  decide +kernel

/-- E9, E10. -/
theorem test_illegal_command_status :
    statusAfter (exec (.wrCmd 0x00000000) (ready [] 0 0)) = some 0x00000011 ∧
    statusAfter (exec (.wrCmd 0x80000001) platform) = some 0x00000010 ∧
    statusAfter (exec (.illegal 0 5) platform) = some 0x00000010 := by decide +kernel

/-! ## RESET -/

/-- R-1. -/
theorem test_reset_from_hardware_reset :
    hashAfter (exec .reset platform) =
      some ⟨0x6a09e667, 0xbb67ae85, 0x3c6ef372, 0xa54ff53a, 0x510e527f, 0x9b05688c, 0x1f83d9ab, 0x5be0cd19⟩ ∧
    statusAfter (exec .reset platform) = some 0x00000001 := by decide +kernel

/-- R-2. -/
theorem test_reset_keeps_dvalid_and_dout :
    let s := (ready [] 0 0).setEngine
      { (ready [] 0 0).engine with dvalid := true, err := 3, dout := abcDigest, hash := emptyDigest }
    hashAfter (exec .reset s) = some initialHash ∧ statusAfter (exec .reset s) = some 0x00000003 ∧
    doutAfter (exec .reset s) = some abcDigest := by decide +kernel

/-! ## The compression function (section 3.2 to 3.5) -/

theorem test_word_functions :
    smallSigma0 0xffffffff = 0x1fffffff ∧ smallSigma1 0xffffffff = 0x003fffff ∧
    bigSigma0 0x80000000 = 0x20040200 ∧ bigSigma1 0x80000000 = 0x02100040 ∧
    smallSigma0 0x12345678 = 0xe7fce6ee ∧ smallSigma1 0x12345678 = 0xa1f78649 ∧
    bigSigma0 0x12345678 = 0x66146474 ∧ bigSigma1 0x12345678 = 0x3561abda ∧
    rotr 0x00000001 1 = 0x80000000 ∧ rotr 0x80000000 31 = 0x00000001 ∧
    ch 0xff00ff00 0x12345678 0x9abcdef0 = 0x12bc56f0 ∧ maj 0xff00ff00 0x12345678 0x9abcdef0 = 0x9a34de70 ∧
    ch 0xf0f0f0f0 0xcccccccc 0xaaaaaaaa = 0xcacacaca ∧ maj 0xf0f0f0f0 0xcccccccc 0xaaaaaaaa = 0xe8e8e8e8 := by
  decide +kernel

theorem test_schedule_of_abc :
    ((schedule (pad [0x61, 0x62, 0x63])).take 20).drop 14 =
      [0x00000000, 0x00000018, 0x61626380, 0x000f0000, 0x7da86405, 0x600003c6] ∧
    (schedule (pad [0x61, 0x62, 0x63])).drop 60 = [0xa43fcf15, 0x668b2ff8, 0xeeaba2cc, 0x12b1edeb] := by decide +kernel

theorem test_round_trace_of_abc :
    workingSetBefore initialHash (pad [0x61, 0x62, 0x63]) 1 =
      ⟨0x5d6aebcd, 0x6a09e667, 0xbb67ae85, 0x3c6ef372, 0xfa2a4622, 0x510e527f, 0x9b05688c, 0x1f83d9ab⟩ ∧
    finalWorkingSet initialHash (pad [0x61, 0x62, 0x63]) =
      ⟨0x506e3058, 0xd39a2165, 0x04d24d6c, 0xb85e2ce9, 0x5ef50f24, 0xfb121210, 0x948d25b6, 0x961f4894⟩ := by
  decide +kernel

/-- C-2, C-3. -/
theorem test_compress_corners :
    compress HashState.zero (List.replicate 64 0) =
      ⟨0x7ca51614, 0x425c3ba8, 0xce54dd2f, 0xc2020ae7, 0xb6e574d1, 0x98136d0f, 0xae7e26cc, 0xbf0be7a6⟩ ∧
    compress ⟨0xffffffff, 0xffffffff, 0xffffffff, 0xffffffff, 0xffffffff, 0xffffffff, 0xffffffff, 0xffffffff⟩
        (List.replicate 64 0xff) =
      ⟨0x0598127a, 0xaf11706e, 0x77401fff, 0xd730c549, 0x0b84c867, 0xa98c6ca3, 0xd7f3c0f9, 0x06a78b79⟩ := by
  decide +kernel

/-! ## COMPRESS (section 3.6) -/

/-- CC-1, CC-5, CC-6. -/
theorem test_compress_command :
    hashAfter (exec .compress (ready (lettersA 64 0x1000) 0x1000 0)) = some lettersBlock ∧
    statusAfter (exec .compress (ready (lettersA 64 0x1000) 0x1000 0)) = some 0x00000001 ∧
    hashAfter (exec (.wrCmd 2) (ready (lettersA 64 0x1003) 0x1003 0xffffffffffffffff)) = some lettersBlock := by
  decide +kernel

/-- CC-2, CC-3, CC-4. -/
theorem test_compress_command_corners :
    statusAfter (exec .compress (fresh [] 0x1000 0)) = some 0x00000020 ∧
    statusAfter (exec .compress { ready [] 0xffffffffffffffc0 0 with regions := allAdmitted }) = some 0x00000001 ∧
    statusAfter (exec .compress { ready [] 0xffffffffffffffc1 0 with regions := allAdmitted }) = some 0x00000041 ∧
    hashAfter (exec .compress (ready [] 0xffffffffffffffc1 0)) = some initialHash := by decide +kernel

/-! ## DIGEST (sections 3.7, 3.8) -/

theorem test_digest_padding_cases :
    sha256 (List.replicate 1 0x61) =
      ⟨0xca978112, 0xca1bbdca, 0xfac231b3, 0x9a23dc4d, 0xa786eff8, 0x147c4e72, 0xb9807785, 0xafee48bb⟩ ∧
    sha256 (List.replicate 55 0x61) =
      ⟨0x9f4390f8, 0xd30c2dd9, 0x2ec9f095, 0xb65e2b9a, 0xe9b0a925, 0xa5258e24, 0x1c9f1e91, 0x0f734318⟩ ∧
    sha256 (List.replicate 56 0x61) =
      ⟨0xb35439a4, 0xac6f0948, 0xb6d6f9e3, 0xc6af0f5f, 0x590ce20f, 0x1bde7090, 0xef797068, 0x6ec6738a⟩ ∧
    sha256 (List.replicate 64 0x61) =
      ⟨0xffe054fe, 0x7ae0cb6d, 0xc65c3af9, 0xb61d5209, 0xf439851d, 0xb43d0ba5, 0x997337df, 0x154668eb⟩ ∧
    sha256 (List.replicate 120 0x61) =
      ⟨0x2f3d3354, 0x32c70b58, 0x0af0e8e1, 0xb3674a7c, 0x020d683a, 0xa5f73aaa, 0xedfdc55a, 0xf904c21c⟩ := by
  decide +kernel

/-- D-1, D-5. -/
theorem test_digest_command_corners :
    doutAfter (exec .digest { ready [] 0xffffffffffffffff 0 with regions := [] }) = some emptyDigest ∧
    statusAfter (exec .digest { ready [] 0xffffffffffffffff 0 with regions := [] }) = some 0x00000003 ∧
    statusAfter (exec (.wrCmd 3) { ready [] 0xfffffffffffffffe 2 with regions := allAdmitted }) =
      some 0x00000003 := by decide +kernel

/-- The state of D-9 before its last DIGEST. -/
def hashedThenTooLong : State :=
  (ready [] 0 0x2000000000000000).setEngine
    { (ready [] 0 0x2000000000000000).engine with dvalid := true, dout := abcDigest }

/-- D-2, D-3, D-6, D-7, D-8, D-9. -/
theorem test_digest_errors :
    statusAfter (exec .digest (ready [] 0 0x2000000000000000)) = some 0x00000031 ∧
    statusAfter (exec .digest (ready [] 1 0xffffffffffffffff)) = some 0x00000031 ∧
    statusAfter (exec .digest (ready [] 0xfffffffffffffffe 3)) = some 0x00000041 ∧
    statusAfter (exec .digest (fresh [] 0 0x4000000000000000)) = some 0x00000020 ∧
    statusAfter (exec .digest (ready [] 0x20000 3)) = some 0x00000050 ∧
    statusAfter (exec .digest hashedThenTooLong) = some 0x00000031 ∧
    doutAfter (exec .digest hashedThenTooLong) = some abcDigest := by decide +kernel

/-! ## Programs (section 4) -/

/-- P1. -/
theorem test_program_hash_abc :
    answers (execAll (hashMessage 0x1000 3) { platform with mem := abcAt 0x1000 }) =
      some [0x00000003, 0xba7816bf, 0x8f01cfea, 0x414140de, 0x5dae2223, 0xb00361a3, 0x96177a9c, 0xb410ff61,
        0xf20015ad] := by decide +kernel

/-- P3. -/
theorem test_program_compress_then_digest :
    doutAfter (execAll ([.reset] ++ setSrc 0x3000 ++ [.compress] ++ setSrc 0x1000 ++ setLen 3 ++ [.digest])
      { platform with mem := abcAt 0x1000 ++ lettersA 64 0x3000 }) =
    some ⟨0x06a58ffe, 0xa339f138, 0x9b74b26d, 0xba67a4da, 0x2253e0da, 0xbc0d14ed, 0x8fd308db, 0xe93c9f95⟩ := by
  decide +kernel

/-- P4. -/
theorem test_program_digest_chains_without_reset :
    doutAfter (execAll [.reset, .digest, .digest] (fresh (abcAt 0x1000) 0x1000 3)) =
      some ⟨0x1de51655, 0xe1a8ca5f, 0x570c062c, 0x6fef497d, 0xd8110762, 0xbd8a7a48, 0xdd95482f, 0x7d22e0a2⟩ ∧
    doutAfter (execAll [.reset, .digest, .digest, .reset, .digest] (fresh (abcAt 0x1000) 0x1000 3)) =
      some abcDigest := by decide +kernel

/-- P5, with a read of STATUS after each command. -/
def errorsAndRecovery : List Instr :=
  List.flatten [[.wrCmd 5, .rdStatus], setSrc 0x1000, setLen 3, [.digest, .rdStatus, .reset, .rdStatus],
    [.wrLenHi 0x20000000, .digest, .rdStatus, .wrLenHi 0], setSrc 0xffffffffffffffff, [.digest, .rdStatus],
    setSrc 0x20000, [.digest, .rdStatus, .compress, .rdStatus, .reset, .rdStatus], setSrc 0x1000,
    [.digest, .rdStatus, .rdDout0]]

theorem test_program_errors_and_recovery :
    answers (execAll errorsAndRecovery { platform with mem := abcAt 0x1000 }) =
      some [0x10, 0x20, 0x01, 0x31, 0x41, 0x50, 0x20, 0x01, 0x03, 0xba7816bf] := by decide +kernel

/-! ## Witnesses: for each obligation with hypotheses, a state and operands that meet them -/

/-- The platform with a region 0x2000 to 0x20FF whose reads have side effects. -/
def withDevice (src len : BitVec 64) : State :=
  { ready [] src len with regions := [⟨0, 0x2000, .idempotent⟩, ⟨0x2000, 0x100, .sideEffecting⟩] }

/-- A write of 0x7A to 0x1000 is under way. -/
def raced (src len : BitVec 64) : State := { ready (lettersA 64 0x1000) src len with inFlight := [(0x1000, 0x7A)] }

theorem witness_DecodeOfEncode : wellFormed (.illegal 0xFFFFFFF 1) = true ∧ wellFormed (.wrDout7 0xFFFFFFFF) = true := by
  decide
theorem witness_EncodeOfDecode :
    decode (.command 0xFFFFFFFF) = .ok (.illegal 0xFFFFFFF 15) ∧ decode (.write 0x3C 4 7) = .ok (.wrDout7 7) := by
  decide
theorem witness_UndefinedWindowAccessesAreRefused :
    ∃ s : State, (s.engineAt 0).isSome ∧ (3 ≠ 4 ∨ 0x3D % 4 ≠ 0 ∨ 0x3C < 0x3D) ∧
      s.pending = .request 0 (.read 0x3D 3) :: [] :=
  ⟨asking platform [.request 0 (.read 0x3D 3)], by decide, by decide, rfl⟩
theorem witness_UndefinedWindowAccessesAreRefused_each :
    (∃ w, step (asking platform [.request 0 (.write 0 2 1)]) = .refused (.undefinedAccess w)) ∧
    (∃ w, step (asking platform [.request 0 (.write 2 4 1)]) = .refused (.undefinedAccess w)) ∧
    (∃ w, step (asking platform [.request 0 (.read 0x40 4)]) = .refused (.undefinedAccess w)) :=
  ⟨⟨_, rfl⟩, ⟨_, rfl⟩, ⟨_, rfl⟩⟩
theorem witness_RequestsOutsideEveryWindowFault :
    ∃ s : State, s.engineAt 0x80 = none ∧ s.pending = .request 0x80 (.read 0 4) :: [] :=
  ⟨asking twoBlocks [.request 0x80 (.read 0 4)], by decide, rfl⟩
theorem witness_StepRunsTheDecodedInstruction :
    ∃ s t : State, s.pending = .request 0x100 (.command 3) :: [] ∧ (s.withPending []).focus 0x100 = some t ∧
      decode (.command 3) = .ok .digest ∧ ∃ u, exec .digest t = .next u :=
  ⟨asking twoBlocks [.request 0x100 (.command 3)], _, rfl, rfl, rfl, _, rfl⟩
theorem witness_StepRunsTheDecodedInstruction_addressed :
    ∃ s t : State, s.pending = .request s.regBase (.command 1) :: [] ∧
      (s.withPending []).focus s.regBase = some t ∧ decode (.command 1) = .ok .reset ∧ t = s.withPending [] :=
  ⟨asking platform [.request 0 (.command 1)], _, rfl, rfl, rfl, rfl⟩
theorem witness_StepRunsTheDecodedInstruction_refused :
    ∃ s t : State, s.pending = .request 0 (.command 2) :: [] ∧ (s.withPending []).focus 0 = some t ∧
      decode (.command 2) = .ok .compress ∧ exec .compress t = .refused .sideEffectingInput :=
  ⟨asking (withDevice 0x1FFF 0) [.request 0 (.command 2)], _, rfl, rfl, rfl, rfl⟩
theorem witness_IdleBlockHoldsItsState : State.reset.pending = [] := rfl
theorem witness_OutsideWriteChangesOneByte :
    ∃ s : State, s.mem.wf = true ∧ s.pending = .memWrite 0xFFFFFFFFFFFFFFFF 7 :: [] :=
  ⟨asking (ready (abcAt 0x1000) 0 0) [.memWrite 0xFFFFFFFFFFFFFFFF 7], by decide +kernel, rfl⟩
theorem witness_RacingWritesLandAfterTheTransaction :
    ∃ s t : State, s.mem.wf = true ∧ s.pending = .request 0 (.read 4 4) :: [] ∧ step s = .next t ∧
      s.racing 0x1000 = [0x7A] :=
  ⟨asking (raced 0x1000 0) [.request 0 (.read 4 4)], _, by decide +kernel, rfl, rfl, by decide +kernel⟩
theorem witness_HardwareResetEvent :
    ∃ s t : State, s.pending = .hardReset 0x100 :: [] ∧ (s.withPending []).focus 0x100 = some t :=
  ⟨asking twoBlocks [.hardReset 0x100], _, rfl, rfl⟩
theorem witness_ReadTransactionsHaveNoSideEffects : isRead .rdDout7 = true ∧ isRead .rdCmd = true := by decide
theorem witness_ResetLoadsTheInitialHash : ∃ s t : State, exec .reset s = .next t := ⟨platform, _, rfl⟩
theorem witness_IllegalCommandChangesOnlyErr :
    ((0 : Word) ≠ 1 ∧ (0 : Word) ≠ 2 ∧ (0 : Word) ≠ 3) ∧ ((4 : Word) ≠ 1 ∧ (4 : Word) ≠ 2 ∧ (4 : Word) ≠ 3) := by
  decide
theorem witness_NotReadyBeforeReset : State.reset.engine.mode = .uninit := rfl
theorem witness_InputTooLargeBeforeAnyRead :
    (ready [] 0 0x2000000000000000).engine.mode = .ready ∧ 2 ^ 61 ≤ (ready [] 0 0x2000000000000000).engine.len.toNat :=
  ⟨rfl, by decide +kernel⟩
theorem witness_InputTooLargeBeforeAnyRead_compress : ∃ t, exec .compress (fresh [] 0 0x2000000000000000) = .next t :=
  ⟨_, rfl⟩
theorem witness_AddrOverflowBeforeAnyRead_compress :
    let s := ready [] 0xFFFFFFFFFFFFFFC1 0
    s.engine.mode = .ready ∧ 2 ^ 64 < s.engine.src.toNat + 64 := ⟨rfl, by decide +kernel⟩
theorem witness_AddrOverflowBeforeAnyRead_digest :
    let s := ready [] 0xE000000000000002 0x1FFFFFFFFFFFFFFF
    s.engine.mode = .ready ∧ s.engine.len.toNat < 2 ^ 61 ∧ 2 ^ 64 < s.engine.src.toNat + s.engine.len.toNat :=
  ⟨rfl, by decide +kernel, by decide +kernel⟩
theorem witness_AddrOverflowBeforeAnyRead_empty :
    let s := ready [] 0xFFFFFFFFFFFFFFFF 0
    s.engine.len = 0 ∧ ∃ t, exec .digest s = .next t :=
  ⟨by decide +kernel, _, rfl⟩
theorem witness_BusErrorLeavesTheEngineUninit_compress :
    let s := ready [] 0xFFC1 0
    s.engine.mode = .ready ∧ s.engine.src.toNat + 64 ≤ 2 ^ 64 ∧ s.sideEffects s.engine.src.toNat 64 = false ∧
      ∃ i < 64, s.admits (s.engine.src.toNat + i) = false :=
  ⟨rfl, by decide +kernel, by decide +kernel, 63, by decide, by decide +kernel⟩
theorem witness_BusErrorLeavesTheEngineUninit_digest :
    let s := ready [] 0x10000 1
    s.engine.mode = .ready ∧ s.engine.len.toNat < 2 ^ 61 ∧ s.engine.src.toNat + s.engine.len.toNat ≤ 2 ^ 64 ∧
      s.sideEffects s.engine.src.toNat s.engine.len.toNat = false ∧
      ∃ i < s.engine.len.toNat, s.admits (s.engine.src.toNat + i) = false :=
  ⟨rfl, by decide +kernel, by decide +kernel, by decide +kernel, 0, by decide +kernel, by decide +kernel⟩
theorem witness_FirstErrorInPriorityOrderIsReported_illegal :
    (0 : Word) ≠ 1 ∧ (0 : Word) ≠ 2 ∧ (0 : Word) ≠ 3 ∧ ∃ t, exec (.wrCmd 0) platform = .next t :=
  ⟨by decide, by decide, by decide, _, rfl⟩
/-- UNINIT beside a range and a length that would be errors too; both checks at their bounds; a bus error; a success. -/
theorem witness_FirstErrorInPriorityOrderIsReported :
    (shown (fun t => t.engine.err) (exec .compress (fresh [] 0xFFFFFFFFFFFFFFFF 0)) = some 2) ∧
    (shown (fun t => t.engine.err) (exec .compress (ready [] 0xFFFFFFFFFFFFFFC1 0)) = some 4) ∧
    (shown (fun t => t.engine.err) (exec .compress (ready [] 0xFFFFFFFFFFFFFFC0 0)) = some 5) ∧
    (shown (fun t => t.engine.err) (exec .compress (ready [] 0xFFC0 0)) = some 0) ∧
    (shown (fun t => t.engine.err) (exec .digest (fresh [] 0 0xFFFFFFFFFFFFFFFF)) = some 2) ∧
    (shown (fun t => t.engine.err) (exec .digest (ready [] 0xFFFFFFFFFFFFFFFF 0x2000000000000000)) = some 3) ∧
    (shown (fun t => t.engine.err) (exec .digest (ready [] 0xE000000000000002 0x1FFFFFFFFFFFFFFF)) = some 4) ∧
    (shown (fun t => t.engine.err) (exec .digest (ready [] 0xFFFF 2)) = some 5) ∧
    (shown (fun t => t.engine.err) (exec .digest (ready [] 0xFFFF 1)) = some 0) := by decide +kernel
theorem witness_CompressUpdatesHashFromMemory :
    let s := ready (lettersA 64 0xFFC0) 0xFFC0 0
    s.engine.mode = .ready ∧ s.engine.src.toNat + 64 ≤ 2 ^ 64 ∧ s.inputReadable 64 ∧ s.inputStable 64 :=
  ⟨rfl, by decide +kernel, ⟨by decide +kernel, by decide +kernel⟩, fun _ _ => rfl⟩
theorem witness_DigestHashesMemoryFromCurrentHash :
    let s := ready (abcAt 0xFFFD) 0xFFFD 3
    s.engine.mode = .ready ∧ s.engine.len.toNat < 2 ^ 61 ∧ s.engine.src.toNat + s.engine.len.toNat ≤ 2 ^ 64 ∧
      s.inputReadable s.engine.len.toNat ∧ s.inputStable s.engine.len.toNat :=
  ⟨rfl, by decide +kernel, by decide +kernel, ⟨by decide +kernel, by decide +kernel⟩, fun _ _ => rfl⟩
theorem witness_EmptyDigestReadsNothing :
    let s := { ready [] 0xFFFFFFFFFFFFFFFF 0 with regions := [] }
    s.engine.mode = .ready ∧ s.engine.len = 0 := ⟨rfl, by decide +kernel⟩
theorem witness_RacedInputBytesAreValuesHeld_compress :
    let s := raced 0x1000 0
    s.engine.mode = .ready ∧ s.engine.src.toNat + 64 ≤ 2 ^ 64 ∧ s.inputReadable 64 ∧
      s.heldValues 0x1000 = [0x61, 0x7A] :=
  ⟨rfl, by decide +kernel, ⟨by decide +kernel, by decide +kernel⟩, by decide +kernel⟩
theorem witness_RacedInputBytesAreValuesHeld_digest :
    let s := raced 0x1000 1
    s.engine.mode = .ready ∧ s.engine.len.toNat < 2 ^ 61 ∧ s.engine.src.toNat + s.engine.len.toNat ≤ 2 ^ 64 ∧
      s.inputReadable s.engine.len.toNat :=
  ⟨rfl, by decide +kernel, by decide +kernel, ⟨by decide +kernel, by decide +kernel⟩⟩
theorem witness_SideEffectingInputIsRefused :
    let s := withDevice 0x1FC1 0x40
    s.engine.mode = .ready ∧ s.engine.src.toNat + 64 ≤ 2 ^ 64 ∧ s.engine.len.toNat < 2 ^ 61 ∧
      63 < s.engine.len.toNat ∧ ∃ r ∈ s.regions, r.kind = .sideEffecting ∧ r.holds (s.engine.src.toNat + 63) = true :=
  ⟨rfl, by decide +kernel, by decide +kernel, by decide +kernel, by decide +kernel⟩
theorem witness_CompressDoesNotReadLen : ∃ t, exec .compress (ready [] 0x1000 3) = .next t := ⟨_, rfl⟩
theorem witness_DigestIsDeterministic :
    let s := ready (abcAt 0x1000) 0x1000 3
    let t := ready (abcAt 0x2000) 0x2000 3
    s.engine.hash = t.engine.hash ∧ s.engine.len = t.engine.len ∧ s.inputStable s.engine.len.toNat ∧
      t.inputStable t.engine.len.toNat ∧
      memBytes s.mem s.engine.src.toNat s.engine.len.toNat = memBytes t.mem t.engine.src.toNat t.engine.len.toNat ∧
      doutAfter (exec .digest s) = some abcDigest ∧ doutAfter (exec .digest t) = some abcDigest ∧
      statusAfter (exec .digest s) = some 3 ∧ statusAfter (exec .digest t) = some 3 :=
  ⟨rfl, by decide +kernel, fun _ _ => rfl, fun _ _ => rfl, by decide +kernel, by decide +kernel, by decide +kernel,
    by decide +kernel, by decide +kernel⟩
theorem witness_WordFunctionsBitByBit :
    (0 < 31 ∧ 31 < 32) ∧ (rotr 0x80000000 31).getLsbD 0 = true ∧ (maj 1 1 0).getLsbD 0 = true ∧
      (ch 1 0 1).getLsbD 0 = false := by decide
theorem witness_MessageWordsAreBigEndian :
    15 < 16 ∧ ((schedule (pad [0x61, 0x62, 0x63])).getD 0 0).extractLsb' 24 8 = 0x61 := by decide +kernel
theorem witness_ScheduleSatisfiesItsRecurrence : (16 ≤ 16 ∧ 16 < 64) ∧ (16 ≤ 63 ∧ 63 < 64) := by decide
theorem witness_RomTablesAreRootsOfPrimes : 0 < 64 ∧ 63 < 64 := by decide
theorem witness_PaddingMeetsItsInvariant :
    ([] : List Byte).length ≤ 2 ^ 61 - 1 ∧ (List.replicate 56 (0x61 : Byte)).length ≤ 2 ^ 61 - 1 ∧
      (56 + 1 + 63 + 8) % 64 = 0 ∧ padZeros 56 = 63 ∧ padZeros 55 = 0 := by decide +kernel
theorem witness_PaddingBlockCount :
    (blocks (pad [])).length = 1 ∧ (blocks (pad (List.replicate 56 0x61))).length = 2 := by decide +kernel
theorem witness_FinalBlocksByCase :
    (List.replicate 55 (0x61 : Byte)).length % 64 ≤ 55 ∧ 56 ≤ (List.replicate 56 (0x61 : Byte)).length % 64 ∧
      blocks (pad (List.replicate 119 0x61)) =
        [List.replicate 64 0x61, List.replicate 55 0x61 ++ [0x80] ++ [0, 0, 0, 0, 0, 0, 0x03, 0xb8]] := by
  decide +kernel
theorem witness_PaddingIsInjective :
    ([0x61] : List Byte).length ≤ 2 ^ 61 - 1 ∧ pad ([0x61] : List Byte) = pad [0x61] := ⟨by decide, rfl⟩
theorem witness_DigestBytesAreBigEndian : 3 < 4 ∧ byteAt emptyDigest.bytes 31 = 0x55 := by decide +kernel
theorem witness_OnlyResetAndBusErrorMoveTheMode :
    (shown (fun t => t.engine.mode) (exec .reset (fresh [] 0 0)) = some .ready) ∧
    (shown (fun t => t.engine.mode) (exec .compress (ready [] 0x10000 0)) = some .uninit) ∧
    (shown (fun t => t.engine.mode) (exec (.wrCmd 3) (ready [] 0x10000 1)) = some .uninit) := by decide +kernel
theorem witness_OnlyResetCompressionAndBusErrorWriteHash :
    (hashAfter (exec .reset platform) = some initialHash ∧ platform.engine.hash ≠ initialHash) ∧
    (hashAfter (exec .compress (ready (lettersA 64 0x1000) 0x1000 0)) = some lettersBlock) ∧
    (hashAfter (exec .digest (ready [] 0 0)) = some emptyDigest) ∧ initialHash ≠ lettersBlock := by decide +kernel
theorem witness_DvalidSaysTheLastDigestSucceeded :
    commandOf .digest = some .digest ∧ commandOf .compress ≠ some .digest ∧ (∃ t, exec .digest platform = .next t) ∧
      ∃ t, exec .compress platform = .next t := ⟨rfl, by decide, ⟨_, rfl⟩, ⟨_, rfl⟩⟩
theorem witness_EveryCommandOverwritesErr :
    commandOf (.wrCmd 7) ≠ none ∧ commandOf .rdCmd = none ∧ (∃ t, exec (.wrCmd 7) platform = .next t) ∧
      ∃ t, exec .rdCmd platform = .next t := ⟨by decide, rfl, ⟨_, rfl⟩, ⟨_, rfl⟩⟩
theorem witness_OnlyTheirWritesChangeSrcAndLen :
    (∀ v, Instr.wrSrcHi 1 ≠ .wrSrcLo v) ∧ (∀ v, Instr.wrLenHi 1 ≠ .wrLenLo v) ∧
      ∃ t, exec (.wrSrcHi 1) platform = .next t ∧ t.engine.srcHi ≠ platform.engine.srcHi :=
  ⟨fun _ h => Instr.noConfusion h, fun _ h => Instr.noConfusion h, _, rfl, by decide⟩
theorem witness_OnlyASuccessfulDigestWritesDout :
    doutAfter (exec .digest (ready [] 0 0)) = some emptyDigest ∧ (ready [] 0 0).engine.dout ≠ emptyDigest := by
  decide +kernel
theorem witness_NoInstructionWritesOutsideItsEngine : ∃ t, exec .digest (raced 0x1000 1) = .next t := ⟨_, rfl⟩
theorem witness_InstancesAreIsolated :
    let s := asking twoBlocks [.request 0 (.command 1)]
    (s.instances.map Prod.fst).Nodup ∧ (∃ t, step s = .next t) ∧ (s.engineAt 0x100).isSome ∧
      (∀ r, HostEvent.request 0 (.command 1) ≠ .request 0x100 r) ∧
      HostEvent.request 0 (.command 1) ≠ .hardReset 0x100 :=
  ⟨by decide, ⟨_, rfl⟩, by decide, fun r h => by injection h with h; omega, by decide⟩
theorem witness_EveryStepKeepsTheStateLegal :
    let s := asking twoBlocks [.request 0x100 (.command 5)]
    s.Legal ∧ ∃ t, step s = .next t :=
  ⟨⟨by decide, by decide, by unfold Engine.legal; decide⟩, _, rfl⟩
/-- Two machines in UNINIT that differ in H alone. -/
theorem witness_UninitHidesTheHash :
    platform.sameButHiddenHash (platform.setEngine (platform.engine.setHash abcDigest)) ∧
      platform ≠ platform.setEngine (platform.engine.setHash abcDigest) :=
  ⟨⟨.inr ⟨rfl, rfl⟩, trivial, rfl, rfl, rfl, rfl, rfl, rfl, rfl⟩, by decide⟩
theorem witness_ResetLeaksNothingIntoTheNextDigest :
    let s := fresh (abcAt 0x1000) 0x1000 3
    let e := { s.engine with mode := Mode.ready, hash := lettersBlock, err := 3, dvalid := true, dout := emptyDigest }
    e.src = s.engine.src ∧ e.len = s.engine.len ∧
      doutAfter (execAll [.reset, .digest] s) = some abcDigest ∧
      doutAfter (execAll [.reset, .digest] (s.setEngine e)) = some abcDigest := by decide +kernel
theorem witness_HashMessageReturnsTheDigest :
    let s := ready (abcAt 0x1000) 0 0
    let a : Addr := 0x1000
    let n : BitVec 64 := 3
    n.toNat < 2 ^ 61 ∧ a.toNat + n.toNat ≤ 2 ^ 64 ∧ s.sideEffects a.toNat n.toNat = false ∧
      ∀ i < n.toNat, s.admits (a.toNat + i) = true ∧ s.racing (a.toNat + i) = [] := by decide +kernel
theorem witness_CommandsChainWithoutALengthCounter :
    let s := ready (abcAt 0x1000 ++ lettersA 64 0x3000) 0x1000 3
    let a : Addr := 0x3000
    s.inFlight = [] ∧ s.sideEffects a.toNat 64 = false ∧ s.sideEffects 0x1000 3 = false ∧
      (∀ i < 64, s.admits (a.toNat + i) = true) ∧ (∀ i < 3, s.admits (0x1000 + i) = true) := by decide +kernel
theorem witness_CommandsChainWithoutALengthCounter_twice :
    let s := fresh (abcAt 0x1000) 0x1000 3
    s.engine.len.toNat < 2 ^ 61 ∧ s.engine.src.toNat + s.engine.len.toNat ≤ 2 ^ 64 ∧ s.inFlight = [] ∧
      s.inputReadable s.engine.len.toNat :=
  ⟨by decide +kernel, by decide +kernel, rfl, by decide +kernel, by decide +kernel⟩
/-- The last two blocks below the top of the memory map. -/
theorem witness_RepeatedCompressChainsConsecutiveBlocks :
    let s := ready [] 0 0
    let a : Addr := 0xFF80
    s.engine.mode = .ready ∧ a.toNat + 64 * 2 ≤ 2 ^ 64 ∧ s.inFlight = [] ∧
      s.sideEffects a.toNat (64 * 2) = false ∧ ∀ i < 64 * 2, s.admits (a.toNat + i) = true := by decide +kernel

end Sys2Proof.Tests.Slice0
end

/-! SUPPORT. Proofs of the statements of 00_scope.md: a step runs the decoded instruction, an outside write
changes one byte, the word functions bit by bit. -/

namespace Sys2Proof.Machine

/-! ## Steps -/

/-- The outcome of the step that consumes a write by another agent (R13(c)). -/
theorem step_memWrite {s : State} {a : Addr} {b : Byte} {rest : List HostEvent}
    (hp : s.pending = .memWrite a b :: rest) :
    step s = .next ((s.withPending rest).writeByte a b) := by
  simp only [step, hp, stepEvent]

/-- The addressed instance is in focus already. -/
theorem State.focus_regBase (s : State) : s.focus s.regBase = some s := if_pos rfl

/-- Settles O8: a request that decodes is `exec` on the instance in focus, and the focus is the window asked for. -/
theorem stepRunsTheDecodedInstruction : Obligations.StepRunsTheDecodedInstruction := by
  intro s t base r rest i hp hf hi
  have hstep : step s = afterExec (exec i t) := step_request hp hf hi
  obtain ⟨hengine, hbase⟩ := State.focus_engineAt hf
  refine ⟨fun u hu => ?_, fun q hq => ?_, fun hb => ?_, hengine.symm, hbase⟩
  · rw [hstep, hu, afterExec]
  · rw [hstep, hq, afterExec]
  · subst hb
    exact Option.some.inj (hf.symm.trans (s.withPending rest).focus_regBase)

/-- Settles O10: the new memory is the old one with `b` written at `a`, and the laws of `Memory.write` say the
rest. -/
theorem outsideWriteChangesOneByte : Obligations.OutsideWriteChangesOneByte := by
  intro s a b rest hwf hp
  exact ⟨s.mem.write a.toNat b, step_memWrite hp, Memory.wf_write hwf a.isLt, Memory.read_write_same hwf,
    fun _ hc => Memory.read_write_other hc⟩

/-! ## Word functions -/

/-- R8's `rotr` is the library's rotation for the counts the block uses. -/
theorem rotr_eq_rotateRight {x : Word} {n : Nat} (hn : n < 32) : rotr x n = x.rotateRight n := by
  rw [rotr, BitVec.rotateRight_def, Nat.mod_eq_of_lt hn]

/-- A bit below `32 - n` comes from `n` places up; the others are the low `n` bits of `x`, carried around. -/
theorem getLsbD_rotr {x : Word} {n i : Nat} (hn : n < 32) (hi : i < 32) :
    (rotr x n).getLsbD i = x.getLsbD ((i + n) % 32) := by
  rw [rotr_eq_rotateRight hn, BitVec.getLsbD_rotateRight, Nat.mod_eq_of_lt hn, Bool.cond_decide]
  by_cases hlow : i < 32 - n
  · rw [if_pos hlow, Nat.mod_eq_of_lt (by omega), Nat.add_comm]
  · have hwrap : (i + n) % 32 = i - (32 - n) := by omega
    rw [if_neg hlow, hwrap, decide_eq_true hi, Bool.true_and]

/-- The two products of Ch are disjoint, so one bit of `e` selects between `f` and `g`. -/
theorem getLsbD_ch (e f g : Word) {i : Nat} (hi : i < 32) :
    (ch e f g).getLsbD i = if e.getLsbD i then f.getLsbD i else g.getLsbD i := by
  rw [ch, BitVec.getLsbD_xor, BitVec.getLsbD_and, BitVec.getLsbD_and, BitVec.getLsbD_not]
  cases e.getLsbD i <;> simp [hi]

/-- The exclusive or of three bits' pairwise products is their majority: the eight rows of its truth table. -/
theorem xor_pairs_eq_majority : ∀ a b c : Bool,
    ((a && b) ^^ (a && c) ^^ (b && c)) = decide (2 ≤ a.toNat + b.toNat + c.toNat) := by
  decide

theorem getLsbD_maj (a b c : Word) (i : Nat) :
    (maj a b c).getLsbD i = decide (2 ≤ (a.getLsbD i).toNat + (b.getLsbD i).toNat + (c.getLsbD i).toNat) := by
  simp only [maj, BitVec.getLsbD_xor, BitVec.getLsbD_and, xor_pairs_eq_majority]

/-- Settles O34: the rotation from its bits' places, Ch and Maj from their truth tables. -/
theorem wordFunctionsBitByBit : Obligations.WordFunctionsBitByBit :=
  ⟨fun _ _ _ _ hn hi => getLsbD_rotr hn hi, fun x y z i hi => ⟨getLsbD_ch x y z hi, getLsbD_maj x y z i⟩⟩

end Sys2Proof.Machine

/-! SUPPORT. Proofs of the statements of 10_state.md: who writes each register and with what, legal states, hidden
values of H, isolated instances, the reset values, the read-only tables. -/

namespace Sys2Proof.Machine

/-! ## Two runs of one command -/

/-- Two outcomes are the same stop, or next states in the relation `Q`. -/
def relatedOutcomes (Q : State → State → Prop) :
    Host.Outcome State Fault Refusal → Host.Outcome State Fault Refusal → Prop
  | .next s, .next t => Q s t
  | .fault a, .fault b => a = b
  | .refused a, .refused b => a = b
  | _, _ => False

/-- Two states show a command's checks and its read of the input the same: MODE, SRC, the memory map, the memory,
the writes in flight and the draw. -/
structure State.sameInput (s t : State) : Prop where
  mode : t.engine.mode = s.engine.mode
  src : t.engine.src = s.engine.src
  regions : t.regions = s.regions
  mem : t.mem = s.mem
  inFlight : t.inFlight = s.inFlight
  draws : t.draws = s.draws

theorem State.sameInput.ready {s t : State} (h : s.sameInput t) : t.engine.ready = s.engine.ready := by
  rw [Engine.ready, h.mode, Engine.ready]

theorem State.sameInput.rangeOverflows {s t : State} (h : s.sameInput t) (n : Nat) :
    t.engine.rangeOverflows n = s.engine.rangeOverflows n := by
  rw [Engine.rangeOverflows, h.src, Engine.rangeOverflows]

theorem State.sameInput.readInput {s t : State} (h : s.sameInput t) (n : Nat) : t.readInput n = s.readInput n :=
  State.readInput_congr h.src h.regions h.mem h.inFlight h.draws n

theorem Engine.lengthTooLarge_congr {e f : Engine} (h : f.len = e.len) : f.lengthTooLarge = e.lengthTooLarge := by
  rw [Engine.lengthTooLarge, h, Engine.lengthTooLarge]

/-- Two COMPRESS on the same input end alike: a relation between the two states after each error and after a success
is one between the outcomes. -/
theorem exec_compress_related {Q : State → State → Prop} {s t : State} (h : s.sameInput t)
    (hraise : ∀ c, Q (s.raise c) (t.raise c))
    (hfinish : s.engine.mode = .ready → ∀ b, Q (s.finishCompress b) (t.finishCompress b)) :
    relatedOutcomes Q (exec .compress s) (exec .compress t) := by
  simp only [exec, execCompress, h.ready, h.rangeOverflows, h.readInput]
  split
  · exact hraise .notReady
  rename_i hready
  split
  · exact hraise .addrOverflow
  cases s.readInput 64 with
  | sideEffecting => rfl
  | busError => exact hraise .busError
  | bytes b => exact hfinish (Engine.ready_eq_true.mp (by simpa using hready)) b

/-- The same of two DIGEST, which read LEN as well. -/
theorem exec_digest_related {Q : State → State → Prop} {s t : State} (h : s.sameInput t)
    (hlen : t.engine.len = s.engine.len) (hraise : ∀ c, Q (s.raiseDigest c) (t.raiseDigest c))
    (hfinish : s.engine.mode = .ready → ∀ d, Q (s.finishDigest d) (t.finishDigest d)) :
    relatedOutcomes Q (exec .digest s) (exec .digest t) := by
  simp only [exec, execDigest, Engine.lengthTooLarge_congr hlen, hlen, h.ready, h.rangeOverflows, h.readInput]
  split
  · exact hraise .notReady
  rename_i hready
  split
  · exact hraise .inputTooLarge
  split
  · exact hraise .addrOverflow
  cases s.readInput s.engine.len.toNat with
  | sideEffecting => rfl
  | busError => exact hraise .busError
  | bytes d => exact hfinish (Engine.ready_eq_true.mp (by simpa using hready)) d

/-- What a next state on one side says of the other. -/
theorem relatedOutcomes.next {Q : State → State → Prop} {o p : Host.Outcome State Fault Refusal} {s : State}
    (h : relatedOutcomes Q o p) (ho : o = .next s) : ∃ t, p = .next t ∧ Q s t := by
  subst ho
  cases p with
  | next t => exact ⟨t, rfl, h⟩
  | fault a => exact h.elim
  | refused a => exact h.elim

/-! ### COMPRESS and LEN -/

/-- The state with another LEN in the addressed instance. -/
def State.withLen (s : State) (lo hi : Word) : State := s.setEngine ((s.engine.setLenLo lo).setLenHi hi)

theorem State.sameInput_withLen (s : State) (lo hi : Word) : s.sameInput (s.withLen lo hi) :=
  ⟨rfl, rfl, rfl, rfl, rfl, rfl⟩

theorem State.raise_withLen (s : State) (lo hi : Word) (c : ErrCode) :
    (s.withLen lo hi).raise c = (s.raise c).withLen lo hi := by
  cases c <;> rfl

theorem State.finishCompress_withLen (s : State) (lo hi : Word) (b : List Byte) :
    (s.withLen lo hi).finishCompress b = (s.finishCompress b).withLen lo hi := by
  simp only [State.finishCompress_eq]
  rfl

/-- Settles O32: with any LEN the checks and the input are the same, and so is what each ending does to the rest. -/
theorem compressDoesNotReadLen : Obligations.CompressDoesNotReadLen := by
  intro s t lo hi hx
  obtain ⟨u, hu, rfl⟩ := (exec_compress_related (Q := fun u v => v = u.withLen lo hi) (s.sameInput_withLen lo hi)
    (s.raise_withLen lo hi) (fun _ => s.finishCompress_withLen lo hi)).next hx
  exact hu

/-! ### Commands and ERR -/

/-- The state with another ERR in the addressed instance. -/
def State.withErr (s : State) (x : BitVec 4) : State := { s with engine := { s.engine with err := x } }

theorem State.sameInput_withErr (s : State) (x : BitVec 4) : s.sameInput (s.withErr x) :=
  ⟨rfl, rfl, rfl, rfl, rfl, rfl⟩

theorem State.raise_withErr (s : State) (x : BitVec 4) (c : ErrCode) : (s.withErr x).raise c = s.raise c := by
  cases c <;> rfl

theorem State.raiseDigest_withErr (s : State) (x : BitVec 4) (c : ErrCode) :
    (s.withErr x).raiseDigest c = s.raiseDigest c :=
  (s.setDvalid false).raise_withErr x c

theorem State.finishCompress_withErr (s : State) (x : BitVec 4) (b : List Byte) :
    (s.withErr x).finishCompress b = s.finishCompress b := by
  simp only [State.finishCompress_eq]
  rfl

theorem State.finishDigest_withErr (s : State) (x : BitVec 4) (d : List Byte) :
    (s.withErr x).finishDigest d = s.finishDigest d := by
  simp only [State.finishDigest_eq]
  rfl

/-- A command forgets the ERR it found (R32). -/
theorem exec_command_withErr {c : Command} {s t : State} (x : BitVec 4) (h : exec (commandInstr c) s = .next t) :
    exec (commandInstr c) (s.withErr x) = .next t := by
  cases c with
  | reset => exact h
  | illegal rsv op => exact h
  | compress =>
    obtain ⟨u, hu, rfl⟩ := (exec_compress_related (Q := fun u v => v = u) (s.sameInput_withErr x)
      (s.raise_withErr x) (fun _ => s.finishCompress_withErr x)).next h
    exact hu
  | digest =>
    obtain ⟨u, hu, rfl⟩ := (exec_digest_related (Q := fun u v => v = u) (s.sameInput_withErr x) rfl
      (s.raiseDigest_withErr x) (fun _ => s.finishDigest_withErr x)).next h
    exact hu

/-! ## What an instruction leaves in the engine -/

/-- What an instruction can leave in the addressed engine, by the instruction and the reason (R22, R31 to R35, R160). -/
inductive EngineStep (i : Instr) (s : State) : Engine → Prop
  | keeps (hc : commandOf i = none) : EngineStep i s s.engine
  | writesSrcLo (v : Word) (hi : i = .wrSrcLo v) : EngineStep i s (s.engine.setSrcLo v)
  | writesSrcHi (v : Word) (hi : i = .wrSrcHi v) : EngineStep i s (s.engine.setSrcHi v)
  | writesLenLo (v : Word) (hi : i = .wrLenLo v) : EngineStep i s (s.engine.setLenLo v)
  | writesLenHi (v : Word) (hi : i = .wrLenHi v) : EngineStep i s (s.engine.setLenHi v)
  | resets (hc : commandOf i = some .reset) :
      EngineStep i s (((s.engine.setHash initialHash).setMode .ready).setErr .ok)
  | rejects (rsv : BitVec 28) (op : BitVec 4) (hc : commandOf i = some (.illegal rsv op)) :
      EngineStep i s (s.raise .illegalCmd).engine
  | compressNotReady (hc : commandOf i = some .compress) (hm : s.engine.mode = .uninit) :
      EngineStep i s (s.raise .notReady).engine
  | compressOverflows (hc : commandOf i = some .compress) (hm : s.engine.mode = .ready) :
      EngineStep i s (s.raise .addrOverflow).engine
  | compressBusError (hc : commandOf i = some .compress) (hm : s.engine.mode = .ready) :
      EngineStep i s (s.raise .busError).engine
  | compresses (b : List Byte) (hc : commandOf i = some .compress) (hm : s.engine.mode = .ready)
      (hb : b.length = 64) : EngineStep i s (s.finishCompress b).engine
  | digestNotReady (hc : commandOf i = some .digest) (hm : s.engine.mode = .uninit) :
      EngineStep i s (s.raiseDigest .notReady).engine
  | digestTooLarge (hc : commandOf i = some .digest) (hm : s.engine.mode = .ready) :
      EngineStep i s (s.raiseDigest .inputTooLarge).engine
  | digestOverflows (hc : commandOf i = some .digest) (hm : s.engine.mode = .ready) :
      EngineStep i s (s.raiseDigest .addrOverflow).engine
  | digestBusError (hc : commandOf i = some .digest) (hm : s.engine.mode = .ready) :
      EngineStep i s (s.raiseDigest .busError).engine
  | digests (d : List Byte) (hc : commandOf i = some .digest) (hm : s.engine.mode = .ready)
      (hd : d.length = s.engine.len.toNat) : EngineStep i s (s.finishDigest d).engine

/-- `exec_next_cases`, read of the engine alone. -/
theorem exec_engineStep {i : Instr} {s t : State} (h : exec i s = .next t) : EngineStep i s t.engine := by
  rcases exec_next_cases h with ⟨hc, hreg⟩ | ⟨hc, rfl⟩ | ⟨⟨rsv, op, hc⟩, rfl⟩ | ⟨hc, hcompress⟩ | ⟨hc, hdigest⟩
  · rcases hreg with ⟨v, rfl⟩ | rfl | ⟨v, hi, rfl⟩ | ⟨v, hi, rfl⟩ | ⟨v, hi, rfl⟩ | ⟨v, hi, rfl⟩
    · exact .keeps hc
    · exact .keeps hc
    · exact .writesSrcLo v hi
    · exact .writesSrcHi v hi
    · exact .writesLenLo v hi
    · exact .writesLenHi v hi
  · exact .resets hc
  · exact .rejects rsv op hc
  · rcases hcompress with ⟨hm, rfl⟩ | ⟨hm, rfl | rfl | rfl⟩
    · exact .compressNotReady hc hm
    · exact .compressOverflows hc hm
    · exact .compressBusError hc hm
    · exact .compresses _ hc hm (by simp)
  · rcases hdigest with ⟨hm, rfl⟩ | ⟨hm, rfl | rfl | rfl | rfl⟩
    · exact .digestNotReady hc hm
    · exact .digestTooLarge hc hm
    · exact .digestOverflows hc hm
    · exact .digestBusError hc hm
    · exact .digests _ hc hm (by simp)

namespace EngineStep

variable {i : Instr} {s : State} {f : Engine} (h : EngineStep i s f)

include h

theorem enters_ready (hs : s.engine.mode = .uninit) (hf : f.mode = .ready) : commandOf i = some .reset := by
  cases h with
  | resets hc => exact hc
  | _ => simp_all

theorem leaves_ready (hs : s.engine.mode = .ready) (hf : f.mode = .uninit) :
    f.err = 5 ∧ (commandOf i = some .compress ∨ commandOf i = some .digest) := by
  cases h with
  | compressBusError hc hm => exact ⟨rfl, .inl hc⟩
  | digestBusError hc hm => exact ⟨rfl, .inr hc⟩
  | _ => simp_all

theorem mode_of_reset (hc : commandOf i = some .reset) : f.mode = .ready := by
  cases h with
  | resets _ => rfl
  | _ => simp_all [commandOf]

theorem hash_writers (hne : f.hash ≠ s.engine.hash) :
    (commandOf i = some .reset ∧ f.hash = initialHash) ∨
    (commandOf i = some .compress ∧ f.err = 0 ∧ ∃ b, b.length = 64 ∧ f.hash = compress s.engine.hash b) ∨
    (commandOf i = some .digest ∧ f.err = 0 ∧
      ∃ d, d.length = s.engine.len.toNat ∧ f.hash = compressBlocks s.engine.hash (blocks (pad d))) ∨
    ((commandOf i = some .compress ∨ commandOf i = some .digest) ∧ f.err = 5 ∧ f.mode = .uninit) := by
  cases h with
  | resets hc => exact .inl ⟨hc, rfl⟩
  | compresses b hc hm hb => exact .inr (.inl ⟨hc, by simp, b, hb, by simp⟩)
  | digests d hc hm hd => exact .inr (.inr (.inl ⟨hc, by simp, d, hd, by simp [digestFrom]⟩))
  | compressBusError hc hm => exact .inr (.inr (.inr ⟨.inl hc, rfl, rfl⟩))
  | digestBusError hc hm => exact .inr (.inr (.inr ⟨.inr hc, rfl, rfl⟩))
  | _ => exact absurd (by simp) hne

theorem dvalid_of_digest (hc : commandOf i = some .digest) : f.dvalid = true ↔ f.err = 0 := by
  cases h with
  | digestNotReady | digestTooLarge | digestOverflows | digestBusError | digests => simp
  | _ => simp_all [commandOf]

theorem dvalid_of_ne_digest (hc : commandOf i ≠ some .digest) : f.dvalid = s.engine.dvalid := by
  cases h with
  | digestNotReady hd | digestTooLarge hd | digestOverflows hd | digestBusError hd | digests _ hd => exact absurd hd hc
  | _ => simp

theorem err_of_command (hc : commandOf i ≠ none) : ∃ c : ErrCode, f.err = c.code := by
  cases h with
  | keeps hn => exact absurd hn hc
  | writesSrcLo _ hi | writesSrcHi _ hi | writesLenLo _ hi | writesLenHi _ hi => exact absurd (hi ▸ rfl) hc
  | resets | compresses | digests => exact ⟨.ok, by simp [ErrCode.code]⟩
  | rejects => exact ⟨.illegalCmd, rfl⟩
  | compressNotReady | digestNotReady => exact ⟨.notReady, rfl⟩
  | digestTooLarge => exact ⟨.inputTooLarge, rfl⟩
  | compressOverflows | digestOverflows => exact ⟨.addrOverflow, rfl⟩
  | compressBusError | digestBusError => exact ⟨.busError, rfl⟩

theorem err_of_register (hc : commandOf i = none) : f.err = s.engine.err := by
  cases h with
  | keeps | writesSrcLo | writesSrcHi | writesLenLo | writesLenHi => simp
  | _ => simp_all

theorem srcLo_eq (hi : ∀ v, i ≠ .wrSrcLo v) : f.srcLo = s.engine.srcLo := by
  cases h with
  | writesSrcLo v hv => exact absurd hv (hi v)
  | _ => simp

theorem srcHi_eq (hi : ∀ v, i ≠ .wrSrcHi v) : f.srcHi = s.engine.srcHi := by
  cases h with
  | writesSrcHi v hv => exact absurd hv (hi v)
  | _ => simp

theorem lenLo_eq (hi : ∀ v, i ≠ .wrLenLo v) : f.lenLo = s.engine.lenLo := by
  cases h with
  | writesLenLo v hv => exact absurd hv (hi v)
  | _ => simp

theorem lenHi_eq (hi : ∀ v, i ≠ .wrLenHi v) : f.lenHi = s.engine.lenHi := by
  cases h with
  | writesLenHi v hv => exact absurd hv (hi v)
  | _ => simp

theorem dout_writers (hne : f.dout ≠ s.engine.dout) : commandOf i = some .digest ∧ f.err = 0 := by
  cases h with
  | digests d hc hm hd => exact ⟨hc, by simp⟩
  | _ => exact absurd (by simp) hne

theorem dout_of_digest (hc : commandOf i = some .digest) (herr : f.err = 0) : f.dout = f.hash := by
  cases h with
  | digests d hc hm hd => simp
  | _ => simp_all [commandOf]

end EngineStep

/-- The codes of R160's table. -/
theorem ErrCode.code_mem (c : ErrCode) : c.code ∈ [0#4, 1#4, 2#4, 3#4, 4#4, 5#4] := by
  cases c <;> decide

/-! ## STATUS -/

/-- The fields of R29's table, for each of the 64 contents of ERR, DVALID and MODE. -/
theorem Engine.statusWord_fields (e : Engine) :
    e.statusWord.getLsbD 0 = e.ready ∧ e.statusWord.getLsbD 1 = e.dvalid ∧
    e.statusWord.extractLsb' 2 2 = 0 ∧ e.statusWord.extractLsb' 4 4 = e.err ∧
    e.statusWord.extractLsb' 8 24 = 0 := by
  rw [Engine.statusWord]
  generalize e.err = err, e.dvalid = d, e.ready = r
  revert err d r
  decide

/-- STATUS.READY reads MODE (R30). -/
theorem Engine.statusWord_ready (e : Engine) : e.statusWord.getLsbD 0 = true ↔ e.mode = .ready := by
  rw [e.statusWord_fields.1, Engine.ready_eq_true]

theorem Engine.statusWord_eq_zero {e : Engine} (hm : e.mode = .uninit) (hd : e.dvalid = false) (herr : e.err = 0) :
    e.statusWord = 0 := by
  simp [Engine.statusWord, Engine.ready_eq_false.mpr hm, hd, herr]

/-! ## The statements about the writers -/

/-- Settles O45: of the sixteen cases of an instruction three move MODE. -/
theorem onlyResetAndBusErrorMoveTheMode : Obligations.OnlyResetAndBusErrorMoveTheMode := by
  refine ⟨fun i s t hx => ?_, rfl, fun s => ⟨s.engine.statusWord, rfl, s.engine.statusWord_ready⟩⟩
  have h := exec_engineStep hx
  exact ⟨h.enters_ready, h.leaves_ready, h.mode_of_reset⟩

/-- Settles O46: five of the sixteen cases write H. -/
theorem onlyResetCompressionAndBusErrorWriteHash : Obligations.OnlyResetCompressionAndBusErrorWriteHash :=
  fun _ _ _ hx => (exec_engineStep hx).hash_writers

/-- Settles O47: DIGEST sets DVALID in the one case where it leaves ERR 0, and no other command touches it. -/
theorem dvalidSaysTheLastDigestSucceeded : Obligations.DvalidSaysTheLastDigestSucceeded :=
  ⟨fun _ _ _ hx => ⟨(exec_engineStep hx).dvalid_of_digest, (exec_engineStep hx).dvalid_of_ne_digest⟩, rfl⟩

/-- Settles O48: the code from the cases of an instruction, the independence from the two runs of a command. -/
theorem everyCommandOverwritesErr : Obligations.EveryCommandOverwritesErr := by
  refine ⟨fun i s t hx => ⟨fun hc => ⟨?_, fun x => ?_⟩, (exec_engineStep hx).err_of_register⟩, rfl⟩
  · obtain ⟨c, hcode⟩ := (exec_engineStep hx).err_of_command hc
    exact hcode ▸ c.code_mem
  · obtain ⟨c, hc⟩ := Option.ne_none_iff_exists'.mp hc
    rw [exec_of_commandOf hc] at hx ⊢
    exact exec_command_withErr x hx

/-- Settles O49: each half has one writer, and the halves assemble as numbers. -/
theorem onlyTheirWritesChangeSrcAndLen : Obligations.OnlyTheirWritesChangeSrcAndLen := by
  refine ⟨fun i s t hx => ?_, fun e => ⟨assemble64_toNat e.srcHi e.srcLo, assemble64_toNat e.lenHi e.lenLo⟩⟩
  have h := exec_engineStep hx
  exact ⟨h.srcLo_eq, h.srcHi_eq, h.lenLo_eq, h.lenHi_eq⟩

/-- Settles O50: one case writes DOUT, and writes H there. -/
theorem onlyASuccessfulDigestWritesDout : Obligations.OnlyASuccessfulDigestWritesDout :=
  fun _ _ _ hx => ⟨(exec_engineStep hx).dout_writers, (exec_engineStep hx).dout_of_digest⟩

/-! ## Legal states -/

/-- An instance's legality reads ERR and MODE alone. -/
theorem Engine.legal_congr {e f : Engine} (herr : f.err = e.err) (hmode : f.mode = e.mode) (h : e.legal) :
    f.legal := by
  unfold Engine.legal at h ⊢
  rwa [herr, hmode]

/-- ERR 0 or 1 is legal in either mode. -/
theorem Engine.legal_of_err_le_one {e : Engine} (h : e.err = 0 ∨ e.err = 1) : e.legal := by
  unfold Engine.legal
  rcases h with h | h <;> simp [h, ErrCode.code]

theorem Engine.legal_of_uninit {e : Engine} (hm : e.mode = .uninit) (h : e.err = 2 ∨ e.err = 5) : e.legal := by
  unfold Engine.legal
  rcases h with h | h <;> simp [h, hm, ErrCode.code]

theorem Engine.legal_of_ready {e : Engine} (hm : e.mode = .ready) (h : e.err = 3 ∨ e.err = 4) : e.legal := by
  unfold Engine.legal
  rcases h with h | h <;> simp [h, hm, ErrCode.code]

theorem EngineStep.legal {i : Instr} {s : State} {f : Engine} (h : EngineStep i s f) (hs : s.engine.legal) :
    f.legal := by
  cases h with
  | keeps hc => exact hs
  | writesSrcLo | writesSrcHi | writesLenLo | writesLenHi => exact Engine.legal_congr rfl rfl hs
  | resets hc => exact Engine.legal_of_err_le_one (.inl rfl)
  | rejects rsv op hc => exact Engine.legal_of_err_le_one (.inr rfl)
  | compressNotReady hc hm => exact Engine.legal_of_uninit hm (.inl rfl)
  | compressOverflows hc hm => exact Engine.legal_of_ready hm (.inr rfl)
  | compressBusError hc hm => exact Engine.legal_of_uninit rfl (.inr rfl)
  | compresses b hc hm hb => exact Engine.legal_of_err_le_one (.inl (by simp))
  | digestNotReady hc hm => exact Engine.legal_of_uninit hm (.inl rfl)
  | digestTooLarge hc hm => exact Engine.legal_of_ready hm (.inl rfl)
  | digestOverflows hc hm => exact Engine.legal_of_ready hm (.inr rfl)
  | digestBusError hc hm => exact Engine.legal_of_uninit rfl (.inr rfl)
  | digests d hc hm hd => exact Engine.legal_of_err_le_one (.inl (by simp))

/-- Legality where the other instances and the windows stay: the memory and the addressed instance decide. -/
theorem State.Legal.of_frame {s t : State} (h : s.Legal) (hbase : t.regBase = s.regBase)
    (hothers : t.others = s.others) (hmem : t.mem.wf = true) (hengine : t.engine.legal) : t.Legal := by
  obtain ⟨-, hnodup, hall⟩ := h
  simp only [State.instances, List.mem_cons, forall_eq_or_imp] at hnodup hall
  simp only [State.Legal, State.instances, List.mem_cons, forall_eq_or_imp, hbase, hothers]
  exact ⟨hmem, hnodup, hengine, hall.2⟩

theorem State.Legal.engine_legal {s : State} (h : s.Legal) : s.engine.legal := by
  obtain ⟨-, -, hall⟩ := h
  exact hall (s.regBase, s.engine) List.mem_cons_self

/-- Addressing an instance swaps it with the one in focus, which keeps the windows apart (R175). -/
theorem State.Legal.focus {s t : State} {base : Nat} (h : s.Legal) (hf : s.focus base = some t) : t.Legal := by
  rcases State.focus_cases hf with ⟨-, rfl⟩ | ⟨-, e, he, rfl⟩
  · exact h
  obtain ⟨hmem, hnodup, hall⟩ := h
  simp only [State.instances, List.map_cons, List.nodup_cons] at hnodup
  refine ⟨hmem, ?_, fun p hp => ?_⟩
  · simpa only [State.instances, List.map_cons, List.nodup_cons] using putInstance_nodup he hnodup.1 hnodup.2
  · rcases List.mem_cons.mp hp with rfl | hp
    · exact hall _ (List.mem_cons_of_mem _ (findInstance_mem he))
    · rcases putInstance_mem hp with rfl | hp
      · exact hall _ List.mem_cons_self
      · exact hall _ (List.mem_cons_of_mem _ hp)

theorem State.Legal.withPending {s : State} (h : s.Legal) (p : List HostEvent) : (s.withPending p).Legal := h

theorem State.Legal.exec {i : Instr} {s t : State} (h : s.Legal) (hx : exec i s = .next t) : t.Legal := by
  obtain ⟨hbase, hothers, hmem, -⟩ := exec_frame hx
  exact h.of_frame hbase hothers (hmem ▸ h.1) ((exec_engineStep hx).legal h.engine_legal)

theorem State.Legal.landWrites {s : State} (h : s.Legal) : s.landWrites.Legal :=
  h.of_frame rfl rfl (Memory.wf_writeAll s.inFlight h.1) h.engine_legal

/-- Settles O53: each kind of event keeps the three clauses. -/
theorem everyStepKeepsTheStateLegal : Obligations.EveryStepKeepsTheStateLegal := by
  intro s t hs hstep
  rcases step_next_cases hstep with ⟨-, rfl⟩ | ⟨base, r, rest, f, i, u, -, hf, -, hx, rfl⟩ |
    ⟨a, b, rest, -, rfl⟩ | ⟨a, b, rest, -, rfl⟩ | ⟨base, rest, f, -, hf, rfl⟩
  · exact hs
  · exact (((hs.withPending rest).focus hf).exec hx).landWrites
  · exact hs.of_frame rfl rfl (Memory.wf_write hs.1 a.isLt) hs.engine_legal
  · exact hs.of_frame rfl rfl hs.1 hs.engine_legal
  · have hlegal : f.Legal := (hs.withPending rest).focus hf
    exact hlegal.of_frame rfl rfl hlegal.1 (Engine.legal_of_err_le_one (.inl rfl))

/-- Settles O54: one window, an empty memory, ERR 0. -/
theorem resetStateIsLegal : Obligations.ResetStateIsLegal :=
  ⟨rfl, List.nodup_singleton _, fun p hp => by
    rw [List.mem_singleton.mp hp]
    exact Engine.legal_of_err_le_one (.inl rfl)⟩

/-! ## Hidden values of H -/

namespace Engine.sameButHiddenHash

variable {e f : Engine} (h : e.sameButHiddenHash f)

include h

/-- Hidden or not, nothing but H differs. -/
theorem eq_setHash : f = e.setHash f.hash := by
  rcases h with rfl | ⟨-, hf⟩
  · rfl
  · exact hf

theorem mode_eq : f.mode = e.mode := by rw [h.eq_setHash]; rfl

/-- In READY nothing is hidden. -/
theorem eq_of_ready (hm : e.mode = .ready) : f = e := by
  rcases h with rfl | ⟨hu, -⟩
  · rfl
  · cases hu.symm.trans hm

/-- A new H on both sides hides nothing any more. -/
theorem setHash_eq (x : HashState) : f.setHash x = e.setHash x := by rw [h.eq_setHash]; rfl

/-- An update of other fields than MODE and H, which commutes with setting H, keeps the agreement. -/
theorem update (g : Engine → Engine) (hmode : ∀ e, (g e).mode = e.mode)
    (hhash : ∀ (e : Engine) (x : HashState), g (e.setHash x) = (g e).setHash x) :
    (g e).sameButHiddenHash (g f) := by
  rcases h with rfl | ⟨hm, hf⟩
  · exact .inl rfl
  · have hg : g f = (g e).setHash f.hash := by rw [← hhash, ← hf]
    exact .inr ⟨(hmode e).trans hm, by rw [hg]; rfl⟩

end Engine.sameButHiddenHash

namespace State.sameButHiddenHash

variable {s t : State} (h : s.sameButHiddenHash t)

include h

theorem engine_same : s.engine.sameButHiddenHash t.engine := h.1

theorem setEngine {e f : Engine} (he : e.sameButHiddenHash f) :
    (s.setEngine e).sameButHiddenHash (t.setEngine f) := ⟨he, h.2⟩

theorem nextDraw : s.nextDraw.sameButHiddenHash t.nextDraw := by
  obtain ⟨he, ho, hb, hm, hr, hf, hp, hret, hd⟩ := h
  exact ⟨he, ho, hb, hm, hr, hf, hp, hret, congrArg (· + 1) hd⟩

/-- A read shows the host a value that does not depend on H. -/
theorem respond (v : Engine → Word) (hv : ∀ (e : Engine) (x : HashState), v (e.setHash x) = v e) :
    (s.respond (v s.engine)).sameButHiddenHash (t.respond (v t.engine)) := by
  obtain ⟨he, ho, hb, hm, hr, hf, hp, hret, hd⟩ := h
  have hvt : v t.engine = v s.engine := by rw [he.eq_setHash, hv]
  exact ⟨he, ho, hb, hm, hr, hf, hp, by simp [hvt, hret], hd⟩

theorem withPending (p : List HostEvent) : (s.withPending p).sameButHiddenHash (t.withPending p) := by
  obtain ⟨he, ho, hb, hm, hr, hf, -, hret, hd⟩ := h
  exact ⟨he, ho, hb, hm, hr, hf, rfl, hret, hd⟩

theorem writeByte (a : Addr) (b : Byte) : (s.writeByte a b).sameButHiddenHash (t.writeByte a b) := by
  obtain ⟨he, ho, hb, hm, hr, hf, hp, hret, hd⟩ := h
  exact ⟨he, ho, hb, by simp [hm], hr, hf, hp, hret, hd⟩

theorem startRacing (a : Addr) (b : Byte) : (s.startRacing a b).sameButHiddenHash (t.startRacing a b) := by
  obtain ⟨he, ho, hb, hm, hr, hf, hp, hret, hd⟩ := h
  exact ⟨he, ho, hb, hm, hr, by simp [hf], hp, hret, hd⟩

theorem landWrites : s.landWrites.sameButHiddenHash t.landWrites := by
  obtain ⟨he, ho, hb, hm, hr, hf, hp, hret, hd⟩ := h
  exact ⟨he, ho, hb, by simp [hm, hf], hr, rfl, hp, hret, hd⟩

theorem draws_eq : t.draws = s.draws := by
  obtain ⟨-, -, -, -, -, -, -, -, hd⟩ := h
  exact hd

theorem sameInput : s.sameInput t := by
  obtain ⟨he, -, -, hm, hr, hf, -, -, hd⟩ := h
  exact ⟨he.mode_eq, by rw [he.eq_setHash]; rfl, hr, hm, hf, hd⟩

theorem raise (c : ErrCode) : (s.raise c).sameButHiddenHash (t.raise c) := by
  have herr (c : ErrCode) : (s.setEngine (s.engine.setErr c)).sameButHiddenHash (t.setEngine (t.engine.setErr c)) :=
    h.setEngine (h.engine_same.update (·.setErr c) (fun _ => rfl) (fun _ _ => rfl))
  cases c with
  | ok | illegalCmd | notReady | inputTooLarge | addrOverflow => exact herr _
  | busError =>
    refine (h.setEngine (.inl ?_)).nextDraw
    rw [h.draws_eq, h.engine_same.eq_setHash]
    rfl

theorem raiseDigest (c : ErrCode) : (s.raiseDigest c).sameButHiddenHash (t.raiseDigest c) :=
  State.sameButHiddenHash.raise
    (h.setEngine (h.engine_same.update (·.setDvalid false) (fun _ => rfl) (fun _ _ => rfl))) c

theorem finishCompress (hm : s.engine.mode = .ready) (b : List Byte) :
    (s.finishCompress b).sameButHiddenHash (t.finishCompress b) := by
  rw [State.finishCompress, State.finishCompress, h.engine_same.eq_of_ready hm]
  exact (h.setEngine (.inl rfl)).nextDraw

theorem finishDigest (hm : s.engine.mode = .ready) (d : List Byte) :
    (s.finishDigest d).sameButHiddenHash (t.finishDigest d) := by
  rw [State.finishDigest, State.finishDigest, h.engine_same.eq_of_ready hm]
  exact (h.setEngine (.inl rfl)).nextDraw

theorem hardReset : s.hardReset.sameButHiddenHash t.hardReset := by
  rw [State.hardReset, State.hardReset, h.draws_eq]
  exact (h.setEngine (.inl rfl)).nextDraw

end State.sameButHiddenHash

theorem sameOutcome_of_related {o p : Host.Outcome State Fault Refusal}
    (h : relatedOutcomes State.sameButHiddenHash o p) : sameOutcome o p := by
  cases o <;> cases p <;> exact h

theorem exec_command_sameOutcome (c : Command) {s t : State} (h : s.sameButHiddenHash t) :
    sameOutcome (exec (commandInstr c) s) (exec (commandInstr c) t) := by
  cases c with
  | reset =>
    refine h.setEngine (.inl ?_)
    rw [h.engine_same.setHash_eq]
  | illegal rsv op => exact h.raise .illegalCmd
  | compress => exact sameOutcome_of_related (exec_compress_related h.sameInput h.raise h.finishCompress)
  | digest =>
    have hlen : t.engine.len = s.engine.len := by rw [h.engine_same.eq_setHash]; rfl
    exact sameOutcome_of_related (exec_digest_related h.sameInput hlen h.raiseDigest h.finishDigest)

/-- No window access shows H or changes it. -/
theorem exec_register_sameOutcome {i : Instr} (hc : commandOf i = none) {s t : State}
    (h : s.sameButHiddenHash t) : sameOutcome (exec i s) (exec i t) := by
  cases i with
  | reset | compress | digest | illegal | wrCmd => cases hc
  | rdCmd | rd0x18 | rd0x1C => exact h.respond (fun _ => 0) (fun _ _ => rfl)
  | rdStatus => exact h.respond Engine.statusWord (fun _ _ => rfl)
  | rdSrcLo => exact h.respond Engine.srcLo (fun _ _ => rfl)
  | rdSrcHi => exact h.respond Engine.srcHi (fun _ _ => rfl)
  | rdLenLo => exact h.respond Engine.lenLo (fun _ _ => rfl)
  | rdLenHi => exact h.respond Engine.lenHi (fun _ _ => rfl)
  | rdDout0 | rdDout1 | rdDout2 | rdDout3 | rdDout4 | rdDout5 | rdDout6 | rdDout7 =>
    exact h.respond (fun e => e.doutWord _) (fun _ _ => rfl)
  | wrSrcLo v => exact h.setEngine (h.engine_same.update (·.setSrcLo v) (fun _ => rfl) (fun _ _ => rfl))
  | wrSrcHi v => exact h.setEngine (h.engine_same.update (·.setSrcHi v) (fun _ => rfl) (fun _ _ => rfl))
  | wrLenLo v => exact h.setEngine (h.engine_same.update (·.setLenLo v) (fun _ => rfl) (fun _ _ => rfl))
  | wrLenHi v => exact h.setEngine (h.engine_same.update (·.setLenHi v) (fun _ => rfl) (fun _ _ => rfl))
  | wrStatus | wr0x18 | wr0x1C | wrDout0 | wrDout1 | wrDout2 | wrDout3 | wrDout4 | wrDout5 | wrDout6 | wrDout7 =>
    exact h

theorem exec_sameOutcome (i : Instr) {s t : State} (h : s.sameButHiddenHash t) :
    sameOutcome (exec i s) (exec i t) := by
  cases hc : commandOf i with
  | none => exact exec_register_sameOutcome hc h
  | some c =>
    rw [exec_of_commandOf hc, exec_of_commandOf hc]
    exact exec_command_sameOutcome c h

/-- Windows are looked up by address, so the same one is found on both sides, or none. -/
theorem findInstance_sameInstances {l m : List (Nat × Engine)} (h : sameInstances l m) (base : Nat) :
    (findInstance base l = none ∧ findInstance base m = none) ∨
    ∃ e f, findInstance base l = some e ∧ findInstance base m = some f ∧ e.sameButHiddenHash f := by
  induction l, m using sameInstances.induct with
  | case1 => exact .inl ⟨rfl, rfl⟩
  | case2 b e l c f m ih =>
    obtain ⟨rfl, hef, hlm⟩ := h
    by_cases hb : b = base
    · exact .inr ⟨e, f, if_pos hb, if_pos hb, hef⟩
    · simpa only [findInstance, if_neg hb] using ih hlm
  | case3 => exact h.elim
  | case4 => exact h.elim

theorem putInstance_sameInstances {l m : List (Nat × Engine)} (h : sameInstances l m) (base b : Nat)
    {e f : Engine} (hef : e.sameButHiddenHash f) :
    sameInstances (putInstance base (b, e) l) (putInstance base (b, f) m) := by
  induction l, m using sameInstances.induct with
  | case1 => trivial
  | case2 c g l d k m ih =>
    obtain ⟨rfl, hgk, hlm⟩ := h
    by_cases hb : c = base
    · simp only [putInstance, if_pos hb]
      exact ⟨rfl, hef, hlm⟩
    · simp only [putInstance, if_neg hb]
      exact ⟨rfl, hgk, ih hlm⟩
  | case3 => exact h.elim
  | case4 => exact h.elim

/-- The instance found at another window comes into focus, and the one in focus takes its place. -/
theorem State.focus_found {s : State} {base : Nat} {e : Engine} (hb : s.regBase ≠ base)
    (he : findInstance base s.others = some e) : s.focus base = some
      { s with engine := e, regBase := base, others := putInstance base (s.regBase, s.engine) s.others } := by
  simp only [State.focus, if_neg hb, he]

theorem State.sameButHiddenHash.focus {s t : State} (h : s.sameButHiddenHash t) (base : Nat) :
    (s.focus base = none ∧ t.focus base = none) ∨
    ∃ u v, s.focus base = some u ∧ t.focus base = some v ∧ u.sameButHiddenHash v := by
  have hst := h
  obtain ⟨he, ho, hb, hm, hr, hf, hp, hret, hd⟩ := h
  by_cases hbase : s.regBase = base
  · exact .inr ⟨s, t, if_pos hbase, if_pos (hb.trans hbase), hst⟩
  have hbase' : t.regBase ≠ base := hb ▸ hbase
  rcases findInstance_sameInstances ho base with ⟨hs, ht⟩ | ⟨e, f, hs, ht, hef⟩
  · exact .inl ⟨by simp [State.focus, hbase, hs], by simp [State.focus, hbase', ht]⟩
  · refine .inr ⟨_, _, State.focus_found hbase hs, State.focus_found hbase' ht, hef, ?_, rfl, hm, hr, hf, hp, hret,
      hd⟩
    simpa only [hb] using putInstance_sameInstances ho base s.regBase he

theorem afterExec_sameOutcome {o p : Host.Outcome State Fault Refusal} (h : sameOutcome o p) :
    sameOutcome (afterExec o) (afterExec p) := by
  cases o with
  | next s =>
    cases p with
    | next t => exact State.sameButHiddenHash.landWrites h
    | fault | refused => exact h
  | fault | refused => cases p <;> exact h

theorem stepEvent_sameOutcome (ev : HostEvent) {s t : State} (h : s.sameButHiddenHash t) :
    sameOutcome (stepEvent ev s) (stepEvent ev t) := by
  cases ev with
  | memWrite a b => exact h.writeByte a b
  | racingWrite a b => exact h.startRacing a b
  | request base r =>
    rcases h.focus base with ⟨hs, ht⟩ | ⟨u, v, hs, ht, huv⟩
    · simp only [stepEvent, hs, ht, sameOutcome]
    · simp only [stepEvent, hs, ht, stepRequest]
      cases decode r with
      | error e => rfl
      | ok i => exact afterExec_sameOutcome (exec_sameOutcome i huv)
  | hardReset base =>
    rcases h.focus base with ⟨hs, ht⟩ | ⟨u, v, hs, ht, huv⟩
    · simp only [stepEvent, hs, ht, sameOutcome]
    · simp only [stepEvent, hs, ht]
      exact huv.hardReset

theorem step_sameOutcome {s t : State} (h : s.sameButHiddenHash t) : sameOutcome (step s) (step t) := by
  have hpending : t.pending = s.pending := by
    obtain ⟨-, -, -, -, -, -, hp, -⟩ := h
    exact hp
  cases hp : s.pending with
  | nil =>
    simp only [step, hpending, hp]
    exact h
  | cons ev rest =>
    simp only [step, hpending, hp]
    exact stepEvent_sameOutcome ev (h.withPending rest)

/-- Settles O55, by induction on the number of steps, the agreement being kept by each. -/
theorem uninitHidesTheHash : Obligations.UninitHidesTheHash := by
  intro k
  induction k with
  | zero => exact fun s t h => h
  | succ k ih =>
    intro s t h
    have hstep := step_sameOutcome h
    rw [core_run_succ, core_run_succ]
    cases hs : step s <;> cases ht : step t <;> rw [hs, ht] at hstep
    case next.next u v => exact ih u v hstep
    case fault.fault | refused.refused => exact hstep
    all_goals exact hstep.elim

/-! ## Isolated instances -/

/-- What leaves the other instances alone after `base` came into focus leaves every other window alone. -/
theorem State.engineAt_of_focus {s f t : State} {base b : Nat} (hf : s.focus base = some f) (hb : b ≠ base)
    (hn : (s.instances.map Prod.fst).Nodup) (hbase : t.regBase = f.regBase) (hothers : t.others = f.others) :
    t.engineAt b = s.engineAt b := by
  have hfocus : f.regBase ≠ b := (State.focus_engineAt hf).2 ▸ hb.symm
  rw [← State.focus_other hf hb hn]
  simp only [State.engineAt, State.instances, findInstance, hbase, hothers, if_neg hfocus]

/-- Settles O52: a request or a reset leaves the windows beside its own, the other events leave every window. -/
theorem instancesAreIsolated : Obligations.InstancesAreIsolated := by
  intro s t ev rest b hn hp hstep hrequest hreset
  rcases step_next_cases hstep with ⟨hp', -⟩ | ⟨base, r, rest, f, i, u, hp', hf, -, hx, rfl⟩ |
    ⟨a, v, rest, -, rfl⟩ | ⟨a, v, rest, -, rfl⟩ | ⟨base, rest, f, hp', hf, rfl⟩
  · cases hp'.symm.trans hp
  · have hb : b ≠ base := by
      rintro rfl
      exact hrequest r (List.cons.inj (hp.symm.trans hp')).1
    obtain ⟨hbase, hothers, -⟩ := exec_frame hx
    exact State.engineAt_of_focus (s := s.withPending rest) hf hb hn hbase hothers
  · rfl
  · rfl
  · have hb : b ≠ base := by
      rintro rfl
      exact hreset (List.cons.inj (hp.symm.trans hp')).1
    exact State.engineAt_of_focus (s := s.withPending rest) (t := f.hardReset) hf hb hn rfl rfl

/-! ## Reset values, CMD and STATUS -/

/-- Settles O12: the new engine is that of `State.hardReset`, whose frame is the model's `nextDraw`. -/
theorem hardwareResetEvent : Obligations.HardwareResetEvent := by
  intro s t base rest hp hf
  obtain ⟨-, -, -, -, -, hdraws⟩ := State.focus_frame hf
  have hstep : step s = .next t.hardReset := by simp only [step, hp, stepEvent, hf]
  refine ⟨t.hardReset.engine, ?_, rfl, rfl, rfl, Engine.statusWord_eq_zero rfl rfl rfl, rfl, rfl, rfl, rfl⟩
  rw [hstep, ← s.withPending_draws rest, ← hdraws]
  rfl

/-- Settles O13: the fields of `State.reset`, and STATUS assembled from them. -/
theorem resetStateValues : Obligations.ResetStateValues :=
  ⟨rfl, rfl, rfl, rfl, rfl, rfl, rfl, Engine.statusWord_eq_zero rfl rfl rfl, rfl⟩

/-- Settles O14: `WR CMD, c` runs the command `c` decodes to. -/
theorem cmdSlotStartsCommandsAndReadsZero : Obligations.CmdSlotStartsCommandsAndReadsZero :=
  ⟨fun s _ => exec_of_commandOf rfl s, fun _ => rfl⟩

/-- Settles O15: `RD STATUS` answers the assembled word, whose fields are R29's. -/
theorem statusIsAssembledAndNotWritable : Obligations.StatusIsAssembledAndNotWritable := by
  refine ⟨fun s => ⟨s.engine.statusWord, rfl, s.engine.statusWord_ready, ?_⟩, fun _ _ => rfl,
    Engine.statusWord_eq_zero rfl rfl rfl⟩
  obtain ⟨-, hfields⟩ := s.engine.statusWord_fields
  exact hfields

/-! ## The read-only tables -/

/-- Filtering the numbers below `n` lists those with the property in order. -/
theorem nth_of_filter_range {p : Nat → Prop} [DecidablePred p] {n t q : Nat}
    (h : ((List.range n).filter (p ·))[t]? = some q) : Nat.nth p t = q := by
  induction n with
  | zero => simp at h
  | succ n ih =>
    have hlength : ((List.range n).filter (p ·)).length = Nat.count p n := by
      rw [Nat.count, List.countP_eq_length_filter]
    rw [List.range_succ, List.filter_append, List.getElem?_append] at h
    split at h
    · exact ih h
    · rename_i hge
      by_cases hn : p n
      · have hlast : t - Nat.count p n = 0 ∧ n = q := by
          simpa [hlength, hn, List.getElem?_singleton] using h
        obtain ⟨hle, rfl⟩ := hlast
        have ht : t = Nat.count p n := by
          rw [hlength] at hge
          omega
        rw [ht, Nat.nth_count hn]
      · simp [hn] at h

/-- The first 64 primes. -/
def firstPrimes : List Nat :=
  [2, 3, 5, 7, 11, 13, 17, 19, 23, 29, 31, 37, 41, 43, 47, 53, 59, 61, 67, 71, 73, 79, 83, 89, 97, 101, 103, 107, 109,
    113, 127, 131, 137, 139, 149, 151, 157, 163, 167, 173, 179, 181, 191, 193, 197, 199, 211, 223, 227, 229, 233, 239,
    241, 251, 257, 263, 269, 271, 277, 281, 283, 293, 307, 311]

theorem filter_prime_range : (List.range 312).filter (Nat.Prime ·) = firstPrimes := by decide +kernel

theorem nth_prime_eq {t : Nat} (ht : t < 64) : Nat.nth Nat.Prime t = firstPrimes.getD t 0 := by
  apply nth_of_filter_range (n := 312)
  have hlength : firstPrimes.length = 64 := rfl
  rw [filter_prime_range, List.getD_eq_getElem?_getD, List.getElem?_eq_getElem (hlength ▸ ht), Option.getD_some]

/-- `a` and the 32 bits of `w` behind the point are the `k`-th root of `p`, rounded down. -/
def isRootOf (k p a : Nat) (w : Word) : Bool :=
  decide ((a * 2 ^ 32 + w.toNat) ^ k ≤ p * 2 ^ (32 * k)) && decide (p * 2 ^ (32 * k) < (a * 2 ^ 32 + w.toNat + 1) ^ k)

theorem exists_root {k p a : Nat} {w : Word} (h : isRootOf k p a w = true) :
    ∃ c : Nat, c ^ k ≤ p * 2 ^ (32 * k) ∧ p * 2 ^ (32 * k) < (c + 1) ^ k ∧ w.toNat = c % 2 ^ 32 := by
  simp only [isRootOf, Bool.and_eq_true, decide_eq_true_eq] at h
  obtain ⟨hle, hlt⟩ := h
  have hw := w.isLt
  exact ⟨a * 2 ^ 32 + w.toNat, hle, hlt, by omega⟩

/-- The integer parts are below 7, since 311 < 7^3. -/
theorem roundConstants_isRootOf :
    ∀ t < 64, ∃ a < 7, isRootOf 3 (firstPrimes.getD t 0) a (roundConstants.getD t 0) = true := by
  decide +kernel

/-- The integer parts are below 5, since 19 < 5^2. -/
theorem initialHash_isRootOf :
    ∀ i : Fin 8, ∃ a < 5, isRootOf 2 (firstPrimes.getD i 0) a (initialHash.word i) = true := by
  decide +kernel

/-- Settles O38: the primes from their list, each root from its integer part and the table's word. -/
theorem romTablesAreRootsOfPrimes : Obligations.RomTablesAreRootsOfPrimes := by
  refine ⟨roundConstants_length, fun t ht => ?_, fun i => ?_⟩
  · obtain ⟨a, -, h⟩ := roundConstants_isRootOf t ht
    rw [nth_prime_eq ht]
    exact exists_root h
  · obtain ⟨a, -, h⟩ := initialHash_isRootOf i
    rw [nth_prime_eq (by omega)]
    exact exists_root h

end Sys2Proof.Machine

/-! SUPPORT. Proofs of the statements of 20_memory.md: big-endian words and digests, a command's input range (empty,
raced, over side effects), what reads and instructions leave alone, when an overlapped write lands. -/

namespace Sys2Proof.Machine

/-! ## Bytes of words -/

/-- Byte `i + j` is the `j`-th most significant byte of the big-endian word at `i` (R62). -/
theorem extractLsb'_be32 (b : List Byte) (i : Nat) {j : Nat} (hj : j < 4) :
    (be32 b i).extractLsb' (24 - 8 * j) 8 = byteAt b (i + j) := by
  rw [be32]
  interval_cases j
  · rw [BitVec.extractLsb'_append_eq_of_le (by decide), BitVec.extractLsb'_append_eq_of_le (by decide)]
    exact BitVec.extractLsb'_append_eq_left
  · rw [BitVec.extractLsb'_append_eq_of_le (by decide), BitVec.extractLsb'_append_eq_of_le (by decide)]
    exact BitVec.extractLsb'_append_eq_right
  · rw [BitVec.extractLsb'_append_eq_of_le (by decide)]
    exact BitVec.extractLsb'_append_eq_right
  · exact BitVec.extractLsb'_append_eq_right

/-- Settles O35: the first 16 words are the block's (R127), and each is read byte by byte. -/
theorem messageWordsAreBigEndian : Obligations.MessageWordsAreBigEndian := by
  intro b t ht
  rw [schedule_getD_block ht]
  have hbyte {j : Nat} (hj : j < 4) := extractLsb'_be32 b (4 * t) hj
  exact ⟨rfl, hbyte (j := 0) (by decide), hbyte (j := 1) (by decide), hbyte (j := 2) (by decide),
    hbyte (j := 3) (by decide)⟩

@[simp] theorem be32bytes_length (w : Word) : (be32bytes w).length = 4 := (rfl)

theorem byteAt_be32bytes (w : Word) {j : Nat} (hj : j < 4) :
    byteAt (be32bytes w) j = w.extractLsb' (24 - 8 * j) 8 := by
  interval_cases j <;> rfl

/-- Word `i` of a serialized list of words holds the bytes `4i` to `4i + 3`. -/
theorem byteAt_flatMap_be32bytes {ws : List Word} {i j : Nat} (hi : i < ws.length) (hj : j < 4) :
    byteAt (ws.flatMap be32bytes) (4 * i + j) = (ws[i]).extractLsb' (24 - 8 * j) 8 := by
  induction ws generalizing i with
  | nil => cases hi
  | cons w ws ih =>
    rw [List.flatMap_cons, byteAt]
    cases i with
    | zero =>
      rw [Nat.mul_zero, Nat.zero_add, List.getD_append _ _ _ _ (by simpa using hj)]
      exact byteAt_be32bytes w hj
    | succ i =>
      have hindex : 4 * (i + 1) + j - 4 = 4 * i + j := by omega
      rw [List.getD_append_right _ _ _ _ (by rw [be32bytes_length]; omega), be32bytes_length, hindex]
      exact ih (Nat.lt_of_succ_lt_succ hi)

/-- A digest is its words' bytes, word by word (R64). -/
theorem HashState.bytes_eq_flatMap (h : HashState) : h.bytes = (List.ofFn h.word).flatMap be32bytes := (rfl)

/-- Settles O43: byte `4i + j` lies in the bytes of word `i`. -/
theorem digestBytesAreBigEndian : Obligations.DigestBytesAreBigEndian := by
  refine fun h => ⟨rfl, fun i j hj => ?_⟩
  rw [h.bytes_eq_flatMap, byteAt_flatMap_be32bytes (by simp) hj, List.getElem_ofFn]

/-! ## A command once its checks have passed -/

/-- What COMPRESS and DIGEST answer to what reading the input range came to: `failed` after a bus error, `done b` after
the bytes `b` (R133, R144). -/
def InputRead.answer (failed : State) (done : List Byte → State) : InputRead → Host.Outcome State Fault Refusal
  | .sideEffecting => .refused .sideEffectingInput
  | .busError => .next failed
  | .bytes b => .next (done b)

/-- In READY with a legal range, what COMPRESS does is decided by its input alone. -/
theorem exec_compress_answer {s : State} (hm : s.engine.mode = .ready) (hle : s.engine.src.toNat + 64 ≤ 2 ^ 64) :
    exec .compress s = (s.readInput 64).answer (s.raise .busError) s.finishCompress := by
  have hready : s.engine.ready = true := Engine.ready_eq_true.mpr hm
  have hrange : s.engine.rangeOverflows 64 = false := by simpa [Engine.rangeOverflows] using hle
  simp only [exec, execCompress, hready, hrange, Bool.true_eq_false, Bool.false_eq_true, if_false]
  cases s.readInput 64 <;> rfl

/-- In READY with a legal length and range, what DIGEST does is decided by its input alone. -/
theorem exec_digest_answer {s : State} (hm : s.engine.mode = .ready) (hlt : s.engine.len.toNat < 2 ^ 61)
    (hle : s.engine.src.toNat + s.engine.len.toNat ≤ 2 ^ 64) :
    exec .digest s = (s.readInput s.engine.len.toNat).answer (s.raiseDigest .busError) s.finishDigest := by
  have hready : s.engine.ready = true := Engine.ready_eq_true.mpr hm
  have hlength : s.engine.lengthTooLarge = false := by simpa [Engine.lengthTooLarge] using hlt
  have hrange : s.engine.rangeOverflows s.engine.len.toNat = false := by simpa [Engine.rangeOverflows] using hle
  simp only [exec, execDigest, hready, hlength, hrange, Bool.true_eq_false, Bool.false_eq_true, if_false]
  cases s.readInput s.engine.len.toNat <;> rfl

/-! ### Raced input -/

/-- A readable input is read whole, each byte one of the values its address held (R72). -/
theorem State.readInput_held {s : State} {n : Nat} (h : s.inputReadable n) :
    ∃ b : List Byte, b.length = n ∧ (∀ i < n, byteAt b i ∈ s.heldValues (s.engine.src.toNat + i)) ∧
      s.readInput n = .bytes b := by
  refine ⟨_, by simp, fun i hi => ?_, State.readInput_readable h⟩
  have hbyte : byteAt ((List.range n).map fun i => s.inputByte (s.engine.src.toNat + i)) i =
      s.inputByte (s.engine.src.toNat + i) := by simp [byteAt, List.getD_eq_getElem?_getD, hi]
  rw [hbyte]
  exact s.inputByte_mem_heldValues _

/-- Settles O30: the bytes are those the read answers. -/
theorem racedInputBytesAreValuesHeld : Obligations.RacedInputBytesAreValuesHeld := by
  refine ⟨fun s hm hle hr => ?_, fun s hm hlt hle hr => ?_⟩
  · obtain ⟨b, hlength, hheld, hread⟩ := State.readInput_held hr
    exact ⟨b, hlength, hheld, by
      rw [exec_compress_answer hm hle, hread, InputRead.answer, State.finishCompress_eq]⟩
  · obtain ⟨d, hlength, hheld, hread⟩ := State.readInput_held hr
    exact ⟨d, hlength, hheld, by
      rw [exec_digest_answer hm hlt hle, hread, InputRead.answer, State.finishDigest_eq]⟩

/-! ### Input over side effects -/

/-- One byte of the range in a side-effecting region is enough (R68, U6). -/
theorem State.readInput_sideEffecting {s : State} {r : Region} {i n : Nat} (hr : r ∈ s.regions)
    (hk : r.kind = .sideEffecting) (hi : i < n) (hh : r.holds (s.engine.src.toNat + i) = true) :
    s.readInput n = .sideEffecting := by
  have hmeets : r.meets s.engine.src.toNat n = true := by
    simp only [Region.holds, Region.meets, Bool.and_eq_true, decide_eq_true_eq] at hh ⊢
    omega
  have hside : s.sideEffects s.engine.src.toNat n = true :=
    List.any_eq_true.mpr ⟨r, hr, by simp [hk, hmeets]⟩
  rw [State.readInput, if_pos hside]

/-- Settles O31: the read says so, and the command answers it with the refusal. -/
theorem sideEffectingInputIsRefused : Obligations.SideEffectingInputIsRefused := by
  refine ⟨fun s r i hm hle hr hk hi hh => ?_, fun s r i hm hlt hle hr hk hi hh => ?_⟩
  · rw [exec_compress_answer hm hle, State.readInput_sideEffecting hr hk hi hh, InputRead.answer]
  · rw [exec_digest_answer hm hlt hle, State.readInput_sideEffecting hr hk hi hh, InputRead.answer]

/-! ### Empty input -/

/-- No byte is read, so no region is touched: the read answers no bytes, whatever SRC and the platform are (R66). -/
theorem State.readInput_zero (s : State) : s.readInput 0 = .bytes [] := by
  have hside : s.sideEffects s.engine.src.toNat 0 = false := by
    simp only [State.sideEffects, Region.meets, List.any_eq_false, Bool.and_eq_true, decide_eq_true_eq]
    omega
  rw [State.readInput, hside]
  rfl

theorem pad_nil : pad [] = 0x80 :: List.replicate 63 0 := (rfl)

/-- The padding of the empty message is one block (R143(a)). -/
theorem digestFrom_nil (h : HashState) : digestFrom h [] = compress h (0x80 :: List.replicate 63 0) := by
  rw [digestFrom, pad_nil, blocks_singleton (by simp)]
  rfl

/-- Settles O29: LEN = 0 passes every check, and the read answers no bytes. -/
theorem emptyDigestReadsNothing : Obligations.EmptyDigestReadsNothing := by
  intro s hm hl
  have hlen : s.engine.len.toNat = 0 := by rw [hl]; rfl
  have hsrc := s.engine.src.isLt
  rw [exec_digest_answer hm (by omega) (by omega), hlen, State.readInput_zero, InputRead.answer,
    State.finishDigest_eq, digestFrom_nil]

/-! ## What is left alone -/

/-- Settles O19: every read is `respond` of its register's value. -/
theorem readTransactionsHaveNoSideEffects : Obligations.ReadTransactionsHaveNoSideEffects := by
  intro i s h
  cases i <;> simp only [isRead, Bool.false_eq_true] at h
  all_goals exact ⟨_, rfl⟩

/-- Settles O51: the frame of every instruction. -/
theorem noInstructionWritesOutsideItsEngine : Obligations.NoInstructionWritesOutsideItsEngine := by
  intro i s t h
  obtain ⟨hbase, hothers, hmem, hregions, hinFlight, hpending⟩ := exec_frame h
  exact ⟨fun a => by rw [hmem], hmem, hothers, hbase, hregions, hinFlight, hpending⟩

/-! ## When an overlapped write lands -/

/-- A request step that answers leaves the memory with the writes in flight done, and none in flight (R72(b)). -/
theorem step_request_lands {s t : State} {base : Nat} {r : Request} {rest : List HostEvent}
    (hp : s.pending = .request base r :: rest) (h : step s = .next t) :
    t.inFlight = [] ∧ t.mem = s.mem.writeAll s.inFlight := by
  rcases step_next_cases h with ⟨hp', -⟩ | ⟨base, r, rest, f, i, u, -, hf, -, hx, rfl⟩ | ⟨a, b, rest, hp', -⟩ |
    ⟨a, b, rest, hp', -⟩ | ⟨base, rest, f, hp', -⟩
  case inr.inl =>
    obtain ⟨hmemFocus, -, hinFlightFocus, -⟩ := State.focus_frame hf
    obtain ⟨-, -, hmem, -, hinFlight, -⟩ := exec_frame hx
    rw [State.landWrites_mem, hmem, hinFlight, hmemFocus, hinFlightFocus]
    exact ⟨rfl, rfl⟩
  all_goals cases hp.symm.trans hp'

/-- Settles O11: the memory after the step is `writeAll` of the writes in flight, and its laws say the rest. -/
theorem racingWritesLandAfterTheTransaction : Obligations.RacingWritesLandAfterTheTransaction := by
  intro s t base r rest hwf hp hstep
  obtain ⟨hinFlight, hmem⟩ := step_request_lands hp hstep
  rw [hmem]
  exact ⟨hinFlight, Memory.wf_writeAll s.inFlight hwf, fun a => Memory.read_writeAll s.inFlight a.toNat hwf⟩

end Sys2Proof.Machine

/-! SUPPORT. Proofs of the statements of 30_encoding.md: decoding and encoding are inverse to each other, which
accesses are transactions, requests without a window, and the pseudo-instructions SETSRC, SETLEN and SHA256. -/

namespace Sys2Proof.Machine

/-! ## Command words -/

/-- The fields spell RESET, COMPRESS or DIGEST exactly when the word is one of the three (R82, R83). -/
theorem isLegalCommand_fields_iff (c : Word) :
    isLegalCommand (rsvField c) (opField c) = true ↔ c = 1 ∨ c = 2 ∨ c = 3 := by
  constructor
  · intro h
    simp only [isLegalCommand, Bool.and_eq_true, Bool.or_eq_true, beq_iff_eq] at h
    obtain ⟨hrsv, hop⟩ := h
    rw [← rsvField_append_opField c, hrsv]
    rcases hop with (hop | hop) | hop <;> rw [hop] <;> decide
  · rintro (rfl | rfl | rfl) <;> decide

/-- A word whose fields spell no command is ILLEGAL with those fields (R83). -/
theorem decodeCommand_of_not_legal {c : Word} (h : isLegalCommand (rsvField c) (opField c) = false) :
    decodeCommand c = .illegal (rsvField c) (opField c) := by
  have hne : ¬(c = 1 ∨ c = 2 ∨ c = 3) := (isLegalCommand_fields_iff c).not.mp (Bool.eq_false_iff.mp h)
  simp only [not_or] at hne
  obtain ⟨h1, h2, h3⟩ := hne
  exact decodeCommand_illegal h1 h2 h3

theorem decodeCommand_append {rsv : BitVec 28} {op : BitVec 4} (h : isLegalCommand rsv op = false) :
    decodeCommand (rsv ++ op) = .illegal rsv op := by
  have hfields := decodeCommand_of_not_legal (c := rsv ++ op) (by rwa [rsvField_append, opField_append])
  rwa [rsvField_append, opField_append] at hfields

/-- Settles O3: the fallback row ILLEGAL keeps its fields, and each other row is at its own word or offset. -/
theorem decodeOfEncode : Obligations.DecodeOfEncode := by
  intro i h
  cases i with
  | illegal rsv op =>
    have hfields : isLegalCommand rsv op = false := by simpa only [wellFormed, Bool.not_eq_true'] using h
    rw [encode, decode, decodeCommand_append hfields, commandInstr]
  | _ => rfl

/-- A command word is the encoding of what it decodes to. -/
theorem encode_decodeCommand (c : Word) :
    encode (commandInstr (decodeCommand c)) = .command c ∧ wellFormed (commandInstr (decodeCommand c)) = true := by
  cases h : isLegalCommand (rsvField c) (opField c) with
  | true => rcases (isLegalCommand_fields_iff c).mp h with rfl | rfl | rfl <;> exact ⟨rfl, rfl⟩
  | false =>
    rw [decodeCommand_of_not_legal h, commandInstr, encode, rsvField_append_opField, wellFormed, h]
    exact ⟨rfl, rfl⟩

/-! ## Window accesses -/

/-- An access that decodes is the encoding of what it decodes to: one row for each slot and direction (R85). -/
theorem encode_decodeAccess {isWrite : Bool} {offset size : Nat} {v : Word} {i : Instr}
    (h : decodeAccess isWrite offset size v = .ok i) :
    encode i = (if isWrite then .write offset size v else .read offset size) ∧ wellFormed i = true := by
  obtain ⟨rfl, haligned, hwindow⟩ := (decodeAccess_ok_iff isWrite offset size v).mp ⟨i, h⟩
  obtain ⟨k, rfl⟩ := slot_cases haligned hwindow
  fin_cases k <;> cases isWrite
  all_goals
    cases h
    exact ⟨rfl, rfl⟩

/-- Settles O4, by the kind of request. -/
theorem encodeOfDecode : Obligations.EncodeOfDecode := by
  intro r i h
  cases r with
  | command c =>
    cases h
    exact encode_decodeCommand c
  | read offset size => exact encode_decodeAccess h
  | write offset size v => exact encode_decodeAccess h

/-- Settles O5: a command word always decodes, and an access by `decodeAccess_ok_iff`. -/
theorem transactionsAreTheAlignedWordAccesses : Obligations.TransactionsAreTheAlignedWordAccesses :=
  ⟨fun _ => ⟨_, rfl⟩, fun offset size => decodeAccess_ok_iff false offset size 0, decodeAccess_ok_iff true⟩

/-! ## The pseudo-instruction SHA256 -/

/-- The state after SETSRC `a`, SETLEN `n` and RESET: ready to DIGEST the `n` bytes at `a` from IV (R87, R110). -/
def State.armed (s : State) (a : Addr) (n : BitVec 64) : State := { s with
  engine := { s.engine with
    srcLo := a.extractLsb' 0 32, srcHi := a.extractLsb' 32 32
    lenLo := n.extractLsb' 0 32, lenHi := n.extractLsb' 32 32
    hash := initialHash, mode := .ready, err := 0 } }

section

variable (s : State) (a : Addr) (n : BitVec 64)

theorem execAll_arm : execAll (setSrc a ++ setLen n ++ [Instr.reset]) s = .next (s.armed a n) := by
  rw [List.append_assoc, execAll_append_next (execAll_setSrc a s), execAll_append_next (execAll_setLen n _)]
  rfl

@[simp] theorem State.armed_src : (s.armed a n).engine.src = a := assemble64_halves a
@[simp] theorem State.armed_len : (s.armed a n).engine.len = n := assemble64_halves n
@[simp] theorem State.armed_mode : (s.armed a n).engine.mode = .ready := (rfl)
@[simp] theorem State.armed_hash : (s.armed a n).engine.hash = initialHash := (rfl)
@[simp] theorem State.armed_mem : (s.armed a n).mem = s.mem := (rfl)
@[simp] theorem State.armed_returned : (s.armed a n).returned = s.returned := (rfl)
@[simp] theorem State.armed_racing (x : Nat) : (s.armed a n).racing x = s.racing x := (rfl)

end

/-- DIGEST of an armed engine hashes what memory holds in the range. -/
theorem exec_digest_armed {s : State} {a : Addr} {n : BitVec 64} (hn : n.toNat < 2 ^ 61)
    (hrange : a.toNat + n.toNat ≤ 2 ^ 64) (hside : s.sideEffects a.toNat n.toNat = false)
    (hadmits : ∀ i < n.toNat, s.admits (a.toNat + i) = true)
    (hquiet : ∀ i < n.toNat, s.racing (a.toNat + i) = []) :
    exec .digest (s.armed a n) = .next ((s.armed a n).finishDigest (memBytes s.mem a.toNat n.toNat)) := by
  have hreadable : (s.armed a n).inputReadable n.toNat :=
    State.inputReadable_of_regions a.toNat rfl (by rw [State.armed_src]) hside hadmits
  have hstable : (s.armed a n).inputStable n.toNat := by
    simpa only [State.inputStable, State.armed_src, State.armed_racing] using hquiet
  have hdigest := exec_digest_stable (State.armed_mode s a n) (by simpa using hn) (by simpa using hrange)
    (by simpa using hreadable) (by simpa using hstable)
  simpa only [State.armed_src, State.armed_len, State.armed_mem] using hdigest

/-- STATUS after a successful DIGEST: READY and DVALID, no error (R29). -/
theorem Engine.statusWord_eq_three {e : Engine} (hm : e.mode = .ready) (hd : e.dvalid = true) (herr : e.err = 0) :
    e.statusWord = 3 := by
  rw [Engine.statusWord, Engine.ready_eq_true.mpr hm, hd, herr]
  decide

/-! ### What the reads return -/

/-- The words are returned to the host one after another. -/
def State.respondAll (s : State) (vs : List Word) : State := vs.foldl State.respond s

@[simp] theorem State.respondAll_engine (s : State) (vs : List Word) : (s.respondAll vs).engine = s.engine := by
  induction vs generalizing s with
  | nil => rfl
  | cons v vs ih => exact ih (s.respond v)

/-- The first word returned is the oldest. -/
@[simp] theorem State.respondAll_returned (s : State) (vs : List Word) :
    (s.respondAll vs).returned = vs.reverse ++ s.returned := by
  induction vs generalizing s with
  | nil => rfl
  | cons v vs ih =>
    rw [List.reverse_cons, List.append_assoc]
    exact ih (s.respond v)

theorem execAll_check_readDigest (s : State) : execAll (checkStatus ++ readDigest) s =
    .next (s.respondAll (s.engine.statusWord :: List.ofFn s.engine.dout.word)) := (rfl)

theorem HashState.ofFn_word (h : HashState) : List.ofFn h.word = [h.h0, h.h1, h.h2, h.h3, h.h4, h.h5, h.h6, h.h7] :=
  (rfl)

/-- SHA256 arms the engine, hashes and reads the answer (R87). -/
theorem hashMessage_eq (a : Addr) (n : BitVec 64) : hashMessage a n =
    (setSrc a ++ setLen n ++ [Instr.reset]) ++ Instr.digest :: (checkStatus ++ readDigest) := (rfl)

/-- Settles O58: the engine is armed whatever it held, DIGEST succeeds, and the reads return what it left. -/
theorem hashMessageReturnsTheDigest : Obligations.HashMessageReturnsTheDigest := by
  intro s a n hn hrange hside hinput
  have hdigest := exec_digest_armed hn hrange hside (fun i hi => (hinput i hi).1) fun i hi => (hinput i hi).2
  generalize memBytes s.mem a.toNat n.toNat = d at hdigest ⊢
  have hengine : ((s.armed a n).finishDigest d).engine =
      { (s.armed a n).engine with hash := sha256 d, dout := sha256 d, dvalid := true, err := 0 } := by
    rw [State.finishDigest_engine, State.armed_hash, sha256]
  have hstatus : ((s.armed a n).finishDigest d).engine.statusWord = 3 := by
    rw [hengine]
    exact Engine.statusWord_eq_three rfl rfl rfl
  refine ⟨((s.armed a n).finishDigest d).respondAll (3 :: List.ofFn (sha256 d).word), ?_, ?_, ?_, ?_⟩
  · rw [hashMessage_eq, execAll_append_next (execAll_arm s a n), execAll_cons_next hdigest, execAll_check_readDigest,
      hstatus, hengine]
  · rw [State.respondAll_returned, HashState.ofFn_word, State.finishDigest_returned, State.armed_returned]
    rfl
  · rw [State.respondAll_engine, hengine]
  · rw [State.respondAll_engine, hengine, State.armed_mode]

/-! ## SETSRC and SETLEN -/

/-- Settles O57: the two writes go to different halves, which give the number back. -/
theorem setSrcAndSetLenInEitherOrder : Obligations.SetSrcAndSetLenInEitherOrder := fun s x =>
  ⟨⟨_, execAll_setSrc x s, rfl, assemble64_halves x, rfl⟩, ⟨_, execAll_setLen x s, rfl, assemble64_halves x, rfl⟩⟩

/-! ## Requests without a window -/

/-- Settles O7: nothing comes into focus, which is the fault. -/
theorem requestsOutsideEveryWindowFault : Obligations.RequestsOutsideEveryWindowFault := by
  intro s base r rest hnone hp
  have hfocus : (s.withPending rest).focus base = none := State.focus_none.mpr hnone
  simp only [step, hp, stepEvent, hfocus]

/-! ## Worked encodings -/

/-- Settles O1, by evaluating the decoder on the nine words. -/
theorem workedCommandWordsDecode : Obligations.WorkedCommandWordsDecode :=
  ⟨rfl, rfl, rfl, rfl, rfl, rfl, rfl, rfl, rfl⟩

/-- Settles O2, by evaluating the decoder on the twelve descriptors. -/
theorem transactionDescriptorsDecode : Obligations.TransactionDescriptorsDecode := by
  unfold Obligations.TransactionDescriptorsDecode
  decide

end Sys2Proof.Machine

/-! SUPPORT. Proofs of the statements of 40_register_access.md: accesses that are no transaction, SRC and LEN, DOUT,
the unmapped slots. -/

namespace Sys2Proof.Machine

/-! ## Undefined accesses -/

/-- An access outside the aligned words of the window decodes to no instruction (R105). -/
theorem decodeAccess_undefined {offset size : Nat} (h : size ≠ 4 ∨ offset % 4 ≠ 0 ∨ 0x3C < offset)
    (isWrite : Bool) (v : Word) : ∃ why, decodeAccess isWrite offset size v = .error why := by
  cases hd : decodeAccess isWrite offset size v with
  | error why => exact ⟨why, rfl⟩
  | ok i =>
    obtain ⟨hsize, haligned, hwindow⟩ := (decodeAccess_ok_iff isWrite offset size v).mp ⟨i, hd⟩
    omega

/-- A window of the platform can be brought into focus. -/
theorem State.focus_of_engineAt {s : State} {base : Nat} (h : (s.engineAt base).isSome) :
    ∃ t, s.focus base = some t :=
  Option.ne_none_iff_exists'.mp fun hnone => Option.isSome_iff_ne_none.mp h (State.focus_none.mp hnone)

/-- A request that does not decode, to a window of the platform: the refusal says why. -/
theorem step_request_undefined {s t : State} {base : Nat} {r : Request} {rest : List HostEvent} {why : DecodeError}
    (hp : s.pending = .request base r :: rest) (hf : (s.withPending rest).focus base = some t)
    (hr : decode r = .error why) : step s = .refused (.undefinedAccess why) := by
  simp only [step, hp, stepEvent, hf, stepRequest, hr]

/-- Settles O6: the window comes into focus, and the decoder rejects the access, read or write. -/
theorem undefinedWindowAccessesAreRefused : Obligations.UndefinedWindowAccessesAreRefused := by
  intro s base offset size v rest hwindow hundefined hp
  obtain ⟨t, hf⟩ := State.focus_of_engineAt (s := s.withPending rest) hwindow
  rcases hp with hp | hp
  · obtain ⟨why, hr⟩ := decodeAccess_undefined hundefined false 0
    exact ⟨why, step_request_undefined hp hf hr⟩
  · obtain ⟨why, hr⟩ := decodeAccess_undefined hundefined true v
    exact ⟨why, step_request_undefined hp hf hr⟩

/-! ## Register accesses -/

/-- Settles O16: each access is one field update of the engine or one answer, and decodes because it is its
instruction's encoding. -/
theorem srcAndLenHalvesStoreAndReadBack : Obligations.SrcAndLenHalvesStoreAndReadBack := fun _ v =>
  ⟨rfl, rfl, rfl, rfl, rfl, rfl, rfl, rfl,
    decodeOfEncode (.wrSrcLo v) rfl, decodeOfEncode (.wrSrcHi v) rfl,
    decodeOfEncode (.wrLenLo v) rfl, decodeOfEncode (.wrLenHi v) rfl,
    decodeOfEncode .rdSrcLo rfl, decodeOfEncode .rdSrcHi rfl,
    decodeOfEncode .rdLenLo rfl, decodeOfEncode .rdLenHi rfl⟩

/-- Settles O17: a read answers `Engine.doutWord` of its index, which is that word of DOUT, and a write is the
identity. -/
theorem doutReadsItsWordAndIgnoresWrites : Obligations.DoutReadsItsWordAndIgnoresWrites := fun _ _ =>
  ⟨rfl, rfl, rfl, rfl, rfl, rfl, rfl, rfl, rfl, rfl, rfl, rfl, rfl, rfl, rfl, rfl⟩

/-- Settles O18: a read answers 0, a write is the identity, and each decodes as its instruction's encoding. -/
theorem unmappedSlotsReadZeroAndIgnoreWrites : Obligations.UnmappedSlotsReadZeroAndIgnoreWrites := fun _ v =>
  ⟨rfl, rfl, rfl, rfl, decodeOfEncode .rd0x18 rfl, decodeOfEncode .rd0x1C rfl,
    decodeOfEncode (.wr0x18 v) rfl, decodeOfEncode (.wr0x1C v) rfl⟩

end Sys2Proof.Machine

/-! SUPPORT. Proofs of the statements of 41_reset.md: what RESET leaves, and what a DIGEST after it can show of the
engine before it. -/

namespace Sys2Proof.Machine

/-! ## RESET -/

/-- The state RESET leaves (R110). -/
def State.afterReset (s : State) : State :=
  { s with engine := { s.engine with hash := initialHash, mode := .ready, err := 0 } }

theorem exec_reset (s : State) : exec .reset s = .next s.afterReset := (rfl)

theorem State.afterReset_afterReset (s : State) : s.afterReset.afterReset = s.afterReset := (rfl)

/-- Settles O20: the command word 1 decodes to RESET, and the state RESET leaves is a fixed point of it. -/
theorem resetLoadsTheInitialHash : Obligations.ResetLoadsTheInitialHash := by
  refine ⟨fun s => ⟨exec_reset s, exec_of_commandOf (i := .wrCmd 1) rfl s⟩, fun s t h => ?_⟩
  obtain rfl : s.afterReset = t := Host.Outcome.next.inj ((exec_reset s).symm.trans h)
  rw [exec_reset, State.afterReset_afterReset]

/-! ## RESET; DIGEST -/

theorem execAll_reset_digest (s : State) : execAll [.reset, .digest] s = exec .digest s.afterReset := by
  rw [execAll_cons_next (exec_reset s), execAll]
  cases exec .digest s.afterReset <;> rfl

/-- Two engines agree in H, MODE, ERR and DVALID. -/
structure Engine.sameResult (e f : Engine) : Prop where
  hash : e.hash = f.hash
  mode : e.mode = f.mode
  err : e.err = f.err
  dvalid : e.dvalid = f.dvalid

/-- RESET has set MODE, so of the engine only SRC can still differ in what a command's checks and input show. -/
theorem State.sameInput_afterReset {s : State} {e : Engine} (hsrc : e.src = s.engine.src) :
    s.afterReset.sameInput (s.setEngine e).afterReset :=
  ⟨rfl, hsrc, rfl, rfl, rfl, rfl⟩

section

variable (s : State) (e : Engine)

/-- RESET has set H and MODE, and an error of DIGEST sets ERR and DVALID. -/
theorem State.raiseDigest_afterReset_sameResult (c : ErrCode) :
    (s.afterReset.raiseDigest c).engine.sameResult ((s.setEngine e).afterReset.raiseDigest c).engine := by
  cases c <;> exact ⟨rfl, rfl, rfl, rfl⟩

/-- A success chains from the H that RESET has set. -/
theorem State.finishDigest_afterReset_sameResult (d : List Byte) :
    (s.afterReset.finishDigest d).engine.sameResult ((s.setEngine e).afterReset.finishDigest d).engine := by
  simp only [State.finishDigest_engine]
  exact ⟨rfl, rfl, rfl, rfl⟩

end

/-- A DIGEST that ends without an error leaves its H in DOUT (R146). -/
theorem exec_digest_dout {s t : State} (h : exec .digest s = .next t) (herr : t.engine.err = 0) :
    t.engine.dout = t.engine.hash :=
  (exec_engineStep h).dout_of_digest rfl herr

/-- Settles O56: the two DIGEST find the same input and chaining value and end alike, and DOUT of a success is its
H. -/
theorem resetLeaksNothingIntoTheNextDigest : Obligations.ResetLeaksNothingIntoTheNextDigest := by
  intro s t u e hsrc hlen ht hu
  rw [execAll_reset_digest] at ht hu
  obtain ⟨v, hv, hsame⟩ := (exec_digest_related (Q := fun t u => t.engine.sameResult u.engine)
    (State.sameInput_afterReset hsrc) hlen (s.raiseDigest_afterReset_sameResult e)
    (fun _ => s.finishDigest_afterReset_sameResult e)).next ht
  obtain rfl : v = u := Host.Outcome.next.inj (hv.symm.trans hu)
  refine ⟨hsame.hash, hsame.mode, hsame.err, hsame.dvalid, fun herr => ?_⟩
  calc t.engine.dout = t.engine.hash := exec_digest_dout ht herr
    _ = v.engine.hash := hsame.hash
    _ = v.engine.dout := (exec_digest_dout hu (hsame.err.symm.trans herr)).symm

end Sys2Proof.Machine

/-! SUPPORT. Proofs of the statements of 42_compress.md: the schedule's recurrence, the 64 rounds and the add-back,
what COMPRESS leaves, and COMPRESSAT over consecutive blocks. -/

namespace Sys2Proof.Machine

/-! ## The compression function -/

/-- Settles O36: the schedule is `extendSchedule` over the block's 16 words, which adds 48. -/
theorem scheduleSatisfiesItsRecurrence : Obligations.ScheduleSatisfiesItsRecurrence := fun b =>
  ⟨schedule_length b, fun _ h16 h64 => extendSchedule_getD_new (by simp) (by simpa using h16) (by simpa using h64)⟩

/-- Settles O37: the fold over the pairs (K[t], W[t]) ends where the recursion over the rounds does. -/
theorem compressIsSixtyFourRoundsAndAddBack : Obligations.CompressIsSixtyFourRoundsAndAddBack := by
  intro h b
  rw [compress, finalWorkingSet_eq, addBack]

/-! ## COMPRESS -/

/-- Settles O27: the input is what memory holds, and the command word 2 decodes to COMPRESS. -/
theorem compressUpdatesHashFromMemory : Obligations.CompressUpdatesHashFromMemory := fun s hm hle hr hq =>
  ⟨(exec_compress_stable hm hle hr hq).trans (congrArg _ (s.finishCompress_eq _)),
    exec_of_commandOf (i := .wrCmd 2) rfl s⟩

/-! ## COMPRESSAT over consecutive blocks -/

/-- The state after SETSRC `a` (R87). -/
def State.withSrc (s : State) (a : Addr) : State :=
  { s with engine := { s.engine with srcLo := a.extractLsb' 0 32, srcHi := a.extractLsb' 32 32 } }

section

variable (s : State) (a : Addr)

@[simp] theorem State.withSrc_src : (s.withSrc a).engine.src = a := assemble64_halves a
@[simp] theorem State.withSrc_hash : (s.withSrc a).engine.hash = s.engine.hash := (rfl)
@[simp] theorem State.withSrc_mode : (s.withSrc a).engine.mode = s.engine.mode := (rfl)
@[simp] theorem State.withSrc_dout : (s.withSrc a).engine.dout = s.engine.dout := (rfl)
@[simp] theorem State.withSrc_dvalid : (s.withSrc a).engine.dvalid = s.engine.dvalid := (rfl)
@[simp] theorem State.withSrc_mem : (s.withSrc a).mem = s.mem := (rfl)
@[simp] theorem State.withSrc_regions : (s.withSrc a).regions = s.regions := (rfl)
@[simp] theorem State.withSrc_inFlight : (s.withSrc a).inFlight = s.inFlight := (rfl)

end

theorem compressAt_eq (a : Addr) : compressAt a = setSrc a ++ Instr.compress :: checkStatus := (rfl)

theorem execAll_checkStatus (s : State) : execAll checkStatus s = .next (s.respond s.engine.statusWord) := (rfl)

/-- `t` is a state that `s` comes to when COMPRESSAT compresses the blocks `bs` one after another (R135): the chaining
value, ERR, and what no COMPRESSAT changes. -/
structure State.ChainsTo (s : State) (bs : List (List Byte)) (t : State) : Prop where
  hash : t.engine.hash = compressBlocks s.engine.hash bs
  err : bs ≠ [] → t.engine.err = 0
  mode : t.engine.mode = s.engine.mode
  dout : t.engine.dout = s.engine.dout
  dvalid : t.engine.dvalid = s.engine.dvalid
  mem : t.mem = s.mem
  regions : t.regions = s.regions
  inFlight : t.inFlight = s.inFlight

namespace State.ChainsTo

theorem nil (s : State) : s.ChainsTo [] s := ⟨rfl, fun h => absurd rfl h, rfl, rfl, rfl, rfl, rfl, rfl⟩

section

variable {s t : State} {bs : List (List Byte)} (h : s.ChainsTo bs t)
include h

/-- SETSRC, one compression and the answer of CHECK chain one more block. -/
theorem snoc (a : Addr) (b : List Byte) (v : Word) :
    s.ChainsTo (bs ++ [b]) (((t.withSrc a).finishCompress b).respond v) where
  hash := by simp [compressBlocks, h.hash]
  err _ := by simp
  mode := by simpa using h.mode
  dout := by simpa using h.dout
  dvalid := by simpa using h.dvalid
  mem := by simpa using h.mem
  regions := by simpa using h.regions
  inFlight := by simpa using h.inFlight

/-- COMPRESSAT over a legal, readable block that nobody writes chains it (R87, R133). -/
theorem execAll_compressAt {a : Addr} (hm : s.engine.mode = .ready) (hle : a.toNat + 64 ≤ 2 ^ 64)
    (hf : s.inFlight = []) (hside : s.sideEffects a.toNat 64 = false)
    (hadmits : ∀ i < 64, s.admits (a.toNat + i) = true) :
    ∃ u, execAll (compressAt a) t = .next u ∧ s.ChainsTo (bs ++ [memBytes s.mem a.toNat 64]) u := by
  have hreadable : (t.withSrc a).inputReadable 64 :=
    State.inputReadable_of_regions a.toNat h.regions (by rw [State.withSrc_src]) hside hadmits
  have hstable : (t.withSrc a).inputStable 64 := State.inputStable_of_inFlight (t.withSrc a) (h.inFlight.trans hf) 64
  have hcompress := exec_compress_stable (s := t.withSrc a) (h.mode.trans hm) (by simpa using hle) hreadable hstable
  rw [State.withSrc_src, State.withSrc_mem, h.mem] at hcompress
  rw [compressAt_eq, execAll_append_next (execAll_setSrc a t)]
  exact ⟨_, (execAll_cons_next hcompress checkStatus).trans (execAll_checkStatus _), h.snoc a _ _⟩

end

end State.ChainsTo

/-- COMPRESSAT at `a`, `a + 64`, .. chains the `n` blocks from `a` on. -/
theorem execAll_compressAt_blocks {s : State} {a : Addr} {n : Nat} (hm : s.engine.mode = .ready)
    (hle : a.toNat + 64 * n ≤ 2 ^ 64) (hf : s.inFlight = []) (hside : s.sideEffects a.toNat (64 * n) = false)
    (hadmits : ∀ i < 64 * n, s.admits (a.toNat + i) = true) :
    ∃ t, execAll ((List.range n).flatMap (fun k => compressAt (a + BitVec.ofNat 64 (64 * k)))) s = .next t ∧
      s.ChainsTo ((List.range n).map (fun k => memBytes s.mem (a.toNat + 64 * k) 64)) t := by
  induction n with
  | zero => exact ⟨s, rfl, .nil s⟩
  | succ n ih =>
    obtain ⟨t, ht, hchain⟩ := ih (by omega) (State.sideEffects_mono hside (by omega) (by omega))
      fun i hi => hadmits i (by omega)
    have hblock : (a + BitVec.ofNat 64 (64 * n)).toNat = a.toNat + 64 * n := by
      rw [BitVec.toNat_add, BitVec.toNat_ofNat]
      omega
    have hblockSide : s.sideEffects (a.toNat + 64 * n) 64 = false :=
      State.sideEffects_mono hside (by omega) (by omega)
    have hblockAdmits : ∀ i < 64, s.admits (a.toNat + 64 * n + i) = true := fun i hi => by
      rw [Nat.add_assoc]
      exact hadmits _ (by omega)
    rw [← hblock] at hblockSide hblockAdmits
    obtain ⟨u, hu, hchain'⟩ := hchain.execAll_compressAt hm (by omega) hf hblockSide hblockAdmits
    rw [hblock] at hchain'
    refine ⟨u, ?_, by rwa [List.range_succ, List.map_append]⟩
    rw [List.range_succ, List.flatMap_append, execAll_append_next ht, List.flatMap_singleton, hu]

/-- Settles O60: by induction on the number of blocks, with the memory map and the empty `inFlight` kept along. -/
theorem repeatedCompressChainsConsecutiveBlocks : Obligations.RepeatedCompressChainsConsecutiveBlocks := by
  intro s a n hm hle hf hside hadmits
  obtain ⟨t, ht, hchain⟩ := execAll_compressAt_blocks hm hle hf hside hadmits
  exact ⟨t, ht, hchain.hash, hchain.mode.trans hm, fun hn => hchain.err (by simpa using hn.ne'), hchain.dout,
    hchain.dvalid, hchain.mem⟩

end Sys2Proof.Machine

/-! SUPPORT. Proofs of the statements of 43_digest.md: the shape of a padded message and of its blocks, what a DIGEST
leaves, and commands that chain. -/

namespace Sys2Proof.Machine

/-! ## The padded message -/

/-- Byte `j` of the length field, as the bits 63-8j : 56-8j of the 64-bit count (R10). -/
theorem byteAt_be64bytes (v : Nat) {j : Nat} (hj : j < 8) :
    byteAt (be64bytes v) j = (BitVec.ofNat 64 v).extractLsb' (56 - 8 * j) 8 := by
  rw [byteAt, be64bytes_getD hj]
  apply BitVec.eq_of_getLsbD_eq
  intro i hi
  have hplace : i + (56 - 8 * j) < 64 := by omega
  simp only [BitVec.getLsbD_ofNat, BitVec.getLsbD_extractLsb', Nat.testBit_div_two_pow, hi, hplace, decide_true,
    Bool.true_and, Nat.add_comm (56 - 8 * j)]

/-- The eight bytes of the length field hold the whole 64-bit count. -/
theorem be64bytes_inj {v w : Nat} (hv : v < 2 ^ 64) (hw : w < 2 ^ 64) (h : be64bytes v = be64bytes w) : v = w := by
  have hbits : BitVec.ofNat 64 v = BitVec.ofNat 64 w := by
    ext i hi
    have hbyte := byteAt_be64bytes w (j := 7 - i / 8) (by omega)
    rw [← h, byteAt_be64bytes v (by omega)] at hbyte
    have hbit := congrArg (BitVec.getLsbD · (i % 8)) hbyte
    have hindex : 56 - 8 * (7 - i / 8) + i % 8 = i := by omega
    have hlt : i % 8 < 8 := Nat.mod_lt i (by decide)
    simp only [BitVec.getLsbD_extractLsb', hlt, decide_true, Bool.true_and, hindex] at hbit
    simpa only [BitVec.getLsbD_eq_getElem hi] using hbit
  have hnat := congrArg BitVec.toNat hbits
  rwa [BitVec.toNat_ofNat, BitVec.toNat_ofNat, Nat.mod_eq_of_lt hv, Nat.mod_eq_of_lt hw] at hnat

/-- No number of zeros below `padZeros` fills the last block (R141). -/
theorem padZeros_least {n z : Nat} (h : (n + 1 + z + 8) % 64 = 0) : padZeros n ≤ z := by
  unfold padZeros
  omega

/-- What follows the message in its padded form. -/
theorem pad_eq_append (d : List Byte) :
    pad d = d ++ ([0x80] ++ List.replicate (padZeros d.length) 0 ++ be64bytes (d.length * 8)) := by
  simp only [pad, List.append_assoc]

theorem take_pad (d : List Byte) : (pad d).take d.length = d := by rw [pad_eq_append, List.take_left]

theorem byteAt_pad_mark (d : List Byte) : byteAt (pad d) d.length = 0x80 := by
  rw [pad_eq_append, byteAt, List.getD_append_right _ _ _ _ (Nat.le_refl _), Nat.sub_self]
  rfl

theorem length_pad_front (d : List Byte) :
    (d ++ [0x80] ++ List.replicate (padZeros d.length) 0).length = d.length + 1 + padZeros d.length := by
  simp only [List.length_append, List.length_singleton, List.length_replicate]

theorem byteAt_pad_zero {d : List Byte} {i : Nat} (hlo : d.length < i) (hhi : i < d.length + 1 + padZeros d.length) :
    byteAt (pad d) i = 0 := by
  have hmark : (d ++ [(0x80 : Byte)]).length = d.length + 1 := List.length_append
  rw [pad, byteAt, List.getD_append _ _ _ _ (by rwa [length_pad_front]),
    List.getD_append_right _ _ _ _ (by rwa [hmark]), List.getD_replicate _ (by omega)]

theorem byteAt_pad_lengthField {d : List Byte} {j : Nat} (hj : j < 8) :
    byteAt (pad d) (d.length + 1 + padZeros d.length + j) =
      (BitVec.ofNat 64 (d.length * 8)).extractLsb' (56 - 8 * j) 8 := by
  rw [← byteAt_be64bytes _ hj, ← length_pad_front, pad, byteAt, List.getD_append_right _ _ _ _ (Nat.le_add_right _ _),
    Nat.add_sub_cancel_left, byteAt]

/-- Settles O39: the bytes part by part, and fewer than 2^61 bytes have a bit length below 2^64. -/
theorem paddingMeetsItsInvariant : Obligations.PaddingMeetsItsInvariant := by
  intro d hd
  have hbits : d.length * 8 < 2 ^ 64 := by omega
  rw [pad_length, Nat.add_sub_cancel]
  exact ⟨padZeros_fills _, rfl, padZeros_le _, fun _ => padZeros_least, take_pad d, byteAt_pad_mark d,
    fun _ => byteAt_pad_zero, fun _ => byteAt_pad_lengthField, Nat.mod_eq_of_lt hbits⟩

/-- Settles O42: the last eight bytes give the length, and the first bytes are the message. -/
theorem paddingIsInjective : Obligations.PaddingIsInjective := by
  intro d e hd he h
  have hfield : be64bytes (d.length * 8) = be64bytes (e.length * 8) := List.append_inj_right' h (by simp)
  have hbits : d.length * 8 = e.length * 8 := be64bytes_inj (by omega) (by omega) hfield
  have hlength : d.length = e.length := by omega
  rw [← take_pad d, h, hlength, take_pad]

/-! ## The blocks of a padded message -/

theorem length_of_mem_blocks {p b : List Byte} (h : b ∈ blocks p) : b.length = 64 := by
  obtain ⟨k, hk, rfl⟩ := List.mem_map.mp h
  have hfull : k < p.length / 64 := List.mem_range.mp hk
  rw [List.length_take, List.length_drop]
  omega

/-- Settles O40: the padding adds 9 bytes and the least zeros that fill the last block. -/
theorem paddingBlockCount : Obligations.PaddingBlockCount := by
  intro d
  have hceil : (pad d).length / 64 = (d.length + 9 + 63) / 64 := by
    have hfills := padZeros_fills d.length
    have hle := padZeros_le d.length
    rw [pad_length]
    omega
  refine ⟨blocks_length _, hceil, ?_, fun _ => length_of_mem_blocks⟩
  rw [hceil]
  split <;> omega

/-- The full chunks of a string come first; what does not fill one goes before the string that follows. -/
theorem blocks_append_rest (d q : List Byte) :
    blocks (d ++ q) = blocks d ++ blocks (d.drop (64 * (d.length / 64)) ++ q) := by
  induction hf : d.length / 64 generalizing d with
  | zero =>
    have hnone : blocks d = [] := List.eq_nil_of_length_eq_zero ((blocks_length d).trans hf)
    rw [hnone, Nat.mul_zero, List.drop_zero, List.nil_append]
  | succ f ih =>
    have hchunk : (d.take 64).length = 64 := by
      rw [List.length_take]
      omega
    have hrest : (d.drop 64).length / 64 = f := by
      rw [List.length_drop]
      omega
    have hcut : blocks d = d.take 64 :: blocks (d.drop 64) := by
      rw [← blocks_append hchunk, List.take_append_drop]
    have hdrop : d.drop (64 * (f + 1)) = (d.drop 64).drop (64 * f) := by
      rw [List.drop_drop, Nat.mul_succ, Nat.add_comm]
    calc blocks (d ++ q) = blocks (d.take 64 ++ (d.drop 64 ++ q)) := by
          rw [← List.append_assoc, List.take_append_drop]
      _ = d.take 64 :: (blocks (d.drop 64) ++ blocks ((d.drop 64).drop (64 * f) ++ q)) := by
          rw [blocks_append hchunk, ih _ hrest]
      _ = blocks d ++ blocks (d.drop (64 * (f + 1)) ++ q) := by rw [hcut, hdrop, List.cons_append]

/-- The last blocks hold what does not fill a chunk, and the padding. -/
theorem blocks_pad (d : List Byte) : blocks (pad d) = blocks d ++
    blocks (d.drop (64 * (d.length / 64)) ++ [0x80] ++ List.replicate (padZeros d.length) 0 ++
      be64bytes (8 * d.length)) := by
  rw [pad_eq_append, blocks_append_rest, Nat.mul_comm d.length 8]
  simp only [List.append_assoc]

/-- Settles O41: with room for 0x80 and the length field the last bytes are one block, else the zeros run over its
end. -/
theorem finalBlocksByCase : Obligations.FinalBlocksByCase := by
  intro d f r tail chunks
  have htail : tail.length = r := by
    rw [List.length_drop]
    omega
  refine ⟨fun hr => ?_, fun hr => ?_⟩
  · have hblock : (tail ++ [0x80] ++ List.replicate (55 - r) (0 : Byte) ++ be64bytes (8 * d.length)).length = 64 := by
      simp only [List.length_append, List.length_replicate, List.length_singleton, be64bytes_length, htail]
      omega
    rw [blocks_pad, padZeros_of_le hr, blocks_singleton hblock]
    rfl
  · have hfirst : (tail ++ [0x80] ++ List.replicate (63 - r) (0 : Byte)).length = 64 := by
      simp only [List.length_append, List.length_replicate, List.length_singleton, htail]
      omega
    have hlast : (List.replicate 56 (0 : Byte) ++ be64bytes (8 * d.length)).length = 64 := by simp
    have hzeros : padZeros d.length = (63 - r) + 56 := by
      rw [padZeros_of_gt hr]
      omega
    rw [blocks_pad, hzeros, List.replicate_add, ← List.append_assoc, List.append_assoc _ (List.replicate 56 0),
      blocks_append hfirst, blocks_singleton hlast]
    rfl

/-! ## DIGEST -/

/-- Settles O28: the input is what memory holds, and the command word 3 decodes to DIGEST. -/
theorem digestHashesMemoryFromCurrentHash : Obligations.DigestHashesMemoryFromCurrentHash :=
  fun s hm hlt hle hr hq =>
    ⟨(exec_digest_stable hm hlt hle hr hq).trans (congrArg _ (s.finishDigest_eq _)),
      exec_of_commandOf (i := .wrCmd 3) rfl s⟩

/-- A failed DIGEST leaves its error's code in ERR (R160). -/
theorem State.raiseDigest_err (s : State) (c : ErrCode) : (s.raiseDigest c).engine.err = c.code := by
  cases c <;> rfl

/-- A DIGEST that ends without an error has passed every check and read its input. -/
theorem exec_digest_checks_of_err {s u : State} (h : exec .digest s = .next u) (herr : u.engine.err = 0) :
    s.engine.mode = .ready ∧ s.engine.len.toNat < 2 ^ 61 ∧ s.engine.src.toNat + s.engine.len.toNat ≤ 2 ^ 64 ∧
      s.inputReadable s.engine.len.toNat := by
  have hfails {c : ErrCode} (hx : exec .digest s = .next (s.raiseDigest c)) : c.code = 0 := by
    rw [← s.raiseDigest_err, Host.Outcome.next.inj (hx.symm.trans h), herr]
  rcases exec_digest_cases s with ⟨-, hx⟩ | ⟨-, -, hx⟩ | ⟨-, -, -, hx⟩ | ⟨-, -, -, -, hx⟩ | ⟨-, -, -, -, -, hx⟩ |
    ⟨hm, hlt, hle, hr, -⟩
  · cases hfails hx
  · cases hfails hx
  · cases hfails hx
  · cases hx.symm.trans h
  · cases hfails hx
  · exact ⟨hm, hlt, hle, hr⟩

/-- A DIGEST of quiet input that ends without an error chains what memory holds from the H before it. -/
theorem exec_digest_hash_of_stable {s u : State} (hq : s.inputStable s.engine.len.toNat) (h : exec .digest s = .next u)
    (herr : u.engine.err = 0) :
    u.engine.hash = digestFrom s.engine.hash (memBytes s.mem s.engine.src.toNat s.engine.len.toNat) := by
  obtain ⟨hm, hlt, hle, hr⟩ := exec_digest_checks_of_err h herr
  rw [← Host.Outcome.next.inj ((exec_digest_stable hm hlt hle hr hq).symm.trans h), State.finishDigest_engine]

/-- Settles O33: both H are the chaining of one input from one H, and DOUT is H. -/
theorem digestIsDeterministic : Obligations.DigestIsDeterministic := by
  intro s t u v hhash hlen hqs hqt hbytes hu hv herru herrv
  have hsame : u.engine.hash = v.engine.hash := by
    rw [exec_digest_hash_of_stable hqs hu herru, exec_digest_hash_of_stable hqt hv herrv, hhash, hbytes]
  exact ⟨by rw [exec_digest_dout hu herru, exec_digest_dout hv herrv, hsame], hsame⟩

/-! ## Commands that chain -/

/-- `t` is ready to chain from `h` over the memory of `s`, which it sees through the same memory map and with no write
under way (R151). -/
structure State.ChainsFrom (s : State) (h : HashState) (t : State) : Prop where
  mode : t.engine.mode = .ready
  hash : t.engine.hash = h
  mem : t.mem = s.mem
  regions : t.regions = s.regions
  inFlight : t.inFlight = []

namespace State.ChainsFrom

theorem afterReset {s : State} (hf : s.inFlight = []) : s.ChainsFrom initialHash s.afterReset :=
  ⟨rfl, rfl, rfl, rfl, hf⟩

section

variable {s t : State} {h : HashState} (hc : s.ChainsFrom h t)
include hc

theorem withSrc (a : Addr) : s.ChainsFrom h (t.withSrc a) :=
  ⟨hc.mode, hc.hash, hc.mem, hc.regions, hc.inFlight⟩

theorem withLen (lo hi : Word) : s.ChainsFrom h (t.withLen lo hi) :=
  ⟨hc.mode, hc.hash, hc.mem, hc.regions, hc.inFlight⟩

/-- What is readable in `s` is readable and quiet as a command's input. -/
theorem input {x n : Nat} (hx : t.engine.src.toNat = x) (hside : s.sideEffects x n = false)
    (hadmits : ∀ i < n, s.admits (x + i) = true) : t.inputReadable n ∧ t.inputStable n :=
  ⟨State.inputReadable_of_regions x hc.regions hx hside hadmits, State.inputStable_of_inFlight t hc.inFlight n⟩

theorem finishCompress (b : List Byte) : s.ChainsFrom (compress h b) (t.finishCompress b) where
  mode := by simpa using hc.mode
  hash := by rw [State.finishCompress_engine, hc.hash]
  mem := by simpa using hc.mem
  regions := by simpa using hc.regions
  inFlight := by simpa using hc.inFlight

theorem finishDigest (d : List Byte) : s.ChainsFrom (digestFrom h d) (t.finishDigest d) where
  mode := by simpa using hc.mode
  hash := by rw [State.finishDigest_engine, hc.hash]
  mem := by simpa using hc.mem
  regions := by simpa using hc.regions
  inFlight := by simpa using hc.inFlight

/-- COMPRESS over a legal, readable block (R133). -/
theorem exec_compress {x : Nat} (hx : t.engine.src.toNat = x) (hle : x + 64 ≤ 2 ^ 64)
    (hside : s.sideEffects x 64 = false) (hadmits : ∀ i < 64, s.admits (x + i) = true) :
    exec .compress t = .next (t.finishCompress (memBytes s.mem x 64)) := by
  obtain ⟨hreadable, hstable⟩ := hc.input hx hside hadmits
  rw [exec_compress_stable hc.mode (by rwa [hx]) hreadable hstable, hx, hc.mem]

/-- DIGEST over a legal, readable range (R144). -/
theorem exec_digest {x n : Nat} (hx : t.engine.src.toNat = x) (hn : t.engine.len.toNat = n) (hlt : n < 2 ^ 61)
    (hle : x + n ≤ 2 ^ 64) (hside : s.sideEffects x n = false) (hadmits : ∀ i < n, s.admits (x + i) = true) :
    exec .digest t = .next (t.finishDigest (memBytes s.mem x n)) := by
  obtain ⟨hreadable, hstable⟩ := hc.input hx hside hadmits
  rw [exec_digest_stable hc.mode (by rwa [hn]) (by rwa [hx, hn]) (by rwa [hn]) (by rwa [hn]), hx, hn, hc.mem]

/-- DOUT after a DIGEST that succeeds: the chaining of the padded input, whose length field counts that input alone
(R144, R146). -/
theorem finishDigest_dout (d : List Byte) : (t.finishDigest d).engine.dout = compressBlocks h (blocks (pad d)) := by
  rw [State.finishDigest_engine, hc.hash, digestFrom]

end

end State.ChainsFrom

section

variable (s : State)

theorem execAll_setSrc_append (a : Addr) (l : List Instr) : execAll (setSrc a ++ l) s = execAll l (s.withSrc a) :=
  execAll_append_next (execAll_setSrc a s) l

theorem execAll_setLen_append (n : BitVec 64) (l : List Instr) : execAll (setLen n ++ l) s =
    execAll l (s.withLen (n.extractLsb' 0 32) (n.extractLsb' 32 32)) :=
  execAll_append_next (execAll_setLen n s) l

theorem State.withLen_src (lo hi : Word) : (s.withLen lo hi).engine.src = s.engine.src := (rfl)

theorem State.withLen_len (n : BitVec 64) :
    (s.withLen (n.extractLsb' 0 32) (n.extractLsb' 32 32)).engine.len = n := assemble64_halves n

theorem State.finishDigest_src (d : List Byte) : (s.finishDigest d).engine.src = s.engine.src := by
  rw [State.finishDigest_engine]
  rfl

theorem State.finishDigest_len (d : List Byte) : (s.finishDigest d).engine.len = s.engine.len := by
  rw [State.finishDigest_engine]
  rfl

end

/-- Settles O59: each command chains from the H before it, and DIGEST pads its own input alone. -/
theorem commandsChainWithoutALengthCounter : Obligations.CommandsChainWithoutALengthCounter := by
  refine ⟨fun s a b n hblock hn hrange hf hblockSide hside hblockAdmits hadmits => ?_, fun s hlt hle hf hr => ?_⟩
  · have hstart := (State.ChainsFrom.afterReset hf).withSrc a
    have hcompress := hstart.exec_compress (by rw [State.withSrc_src]) hblock hblockSide hblockAdmits
    have hchained := ((hstart.finishCompress (memBytes s.mem a.toNat 64)).withSrc b).withLen
      (n.extractLsb' 0 32) (n.extractLsb' 32 32)
    have hdigest := hchained.exec_digest (by rw [State.withLen_src, State.withSrc_src]) (by rw [State.withLen_len]) hn
      hrange hside hadmits
    refine ⟨_, ?_, hchained.finishDigest_dout _⟩
    rw [List.singleton_append, execAll_cons_next (exec_reset s), execAll_setSrc_append, List.singleton_append,
      execAll_cons_next hcompress, execAll_setSrc_append, execAll_setLen_append, execAll_cons_next hdigest, execAll]
  · obtain ⟨hside, hadmits⟩ := hr
    have hstart := State.ChainsFrom.afterReset hf
    have hfirst := hstart.exec_digest (x := s.engine.src.toNat) (n := s.engine.len.toNat) rfl rfl hlt hle hside hadmits
    have hchained := hstart.finishDigest (memBytes s.mem s.engine.src.toNat s.engine.len.toNat)
    have hsecond := hchained.exec_digest (x := s.engine.src.toNat) (n := s.engine.len.toNat)
      (by rw [State.finishDigest_src]; rfl) (by rw [State.finishDigest_len]; rfl) hlt hle hside hadmits
    refine ⟨_, ?_, hchained.finishDigest_dout _⟩
    rw [execAll_cons_next (exec_reset s), execAll_cons_next hfirst, execAll_cons_next hsecond, execAll]

end Sys2Proof.Machine

/-! SUPPORT. Proofs of the statements of 60_exceptions.md: what each failed check of COMPRESS and DIGEST does, that the
first one in the order of R166 is reported, and that no instruction traps. -/

namespace Sys2Proof.Machine

/-! ## Each failed check -/

section

variable {s : State}

/-- R162, the first check. -/
theorem exec_compress_of_uninit (hm : s.engine.mode = .uninit) : exec .compress s = .next (s.raise .notReady) := by
  simp [exec, execCompress, Engine.ready_eq_false.mpr hm]

theorem exec_digest_of_uninit (hm : s.engine.mode = .uninit) : exec .digest s = .next (s.raiseDigest .notReady) := by
  simp [exec, execDigest, Engine.ready_eq_false.mpr hm]

/-- R163: DIGEST alone looks at LEN. -/
theorem exec_digest_of_tooLarge (hm : s.engine.mode = .ready) (hlen : 2 ^ 61 ≤ s.engine.len.toNat) :
    exec .digest s = .next (s.raiseDigest .inputTooLarge) := by
  simp [exec, execDigest, Engine.ready_eq_true.mpr hm, Engine.lengthTooLarge_iff.mpr hlen]

/-- R164. -/
theorem exec_compress_of_overflow (hm : s.engine.mode = .ready) (hrange : 2 ^ 64 < s.engine.src.toNat + 64) :
    exec .compress s = .next (s.raise .addrOverflow) := by
  simp [exec, execCompress, Engine.ready_eq_true.mpr hm, Engine.rangeOverflows_iff.mpr hrange]

theorem exec_digest_of_overflow (hm : s.engine.mode = .ready) (hlt : s.engine.len.toNat < 2 ^ 61)
    (hrange : 2 ^ 64 < s.engine.src.toNat + s.engine.len.toNat) :
    exec .digest s = .next (s.raiseDigest .addrOverflow) := by
  have hlength : s.engine.lengthTooLarge = false := by simpa [Engine.lengthTooLarge] using hlt
  simp [exec, execDigest, Engine.ready_eq_true.mpr hm, hlength, Engine.rangeOverflows_iff.mpr hrange]

/-- One byte that is not admitted is enough (R61), outside the side-effecting regions (R68). -/
theorem State.readInput_refused {n : Nat} (hside : s.sideEffects s.engine.src.toNat n = false)
    (hrefused : ∃ i < n, s.admits (s.engine.src.toNat + i) = false) : s.readInput n = .busError := by
  rw [State.readInput, hside, State.readBytes_refused hrefused]
  rfl

end

/-! ## What the input decides -/

/-- A command that asks for its input and answers reports BUS_ERROR when a byte of the range is not admitted, and no
error when all of them are (R165). -/
theorem State.err_of_readInput_answer {s failed t : State} {done : List Byte → State} {n : Nat}
    (hfailed : failed.engine.err = 5) (hdone : ∀ b, (done b).engine.err = 0)
    (h : (s.readInput n).answer failed done = .next t) :
    ((∃ i < n, s.admits (s.engine.src.toNat + i) = false) → t.engine.err = 5) ∧
    ((∀ i < n, s.admits (s.engine.src.toNat + i) = true) → t.engine.err = 0) := by
  rcases s.readInput_cases n with ⟨-, hread⟩ | ⟨-, ⟨i, hi, hrefused⟩, hread⟩ | ⟨⟨-, hadmits⟩, hread⟩ <;>
    rw [hread, InputRead.answer] at h <;> cases h
  · exact ⟨fun _ => hfailed, fun hadmits => Bool.noConfusion ((hadmits i hi).symm.trans hrefused)⟩
  · exact ⟨fun ⟨i, hi, hrefused⟩ => Bool.noConfusion ((hadmits i hi).symm.trans hrefused), fun _ => hdone _⟩

theorem State.finishCompress_err (s : State) (b : List Byte) : (s.finishCompress b).engine.err = 0 := by
  rw [State.finishCompress_engine]

theorem State.finishDigest_err (s : State) (d : List Byte) : (s.finishDigest d).engine.err = 0 := by
  rw [State.finishDigest_engine]

/-! ## The codes a command can leave -/

/-- The outcome is known, so what it says of ERR is what is reported. -/
theorem err_of_exec {i : Instr} {s t u : State} (hx : exec i s = .next u) (h : exec i s = .next t) :
    t.engine.err = u.engine.err := by
  rw [Host.Outcome.next.inj (h.symm.trans hx)]

/-- COMPRESS leaves ERR = 0 or 5, or it leaves 2 or 4 and has changed ERR alone (R162, R164). -/
theorem exec_compress_err_cases {s t : State} (h : exec .compress s = .next t) :
    t.engine.err = 0 ∨ t.engine.err = 5 ∨
    ((t.engine.err = 2 ∨ t.engine.err = 4) ∧ t = { s with engine := { s.engine with err := t.engine.err } }) := by
  rcases exec_compress_cases s with ⟨-, hx⟩ | ⟨-, -, hx⟩ | ⟨-, -, -, hx⟩ | ⟨-, -, -, -, hx⟩ | ⟨-, -, -, hx⟩ <;>
    cases hx.symm.trans h
  case inl => exact .inr (.inr ⟨.inl rfl, rfl⟩)
  case inr.inl => exact .inr (.inr ⟨.inr rfl, rfl⟩)
  case inr.inr.inr.inl => exact .inr (.inl rfl)
  case inr.inr.inr.inr => exact .inl (s.finishCompress_err _)

/-- DIGEST leaves ERR = 0 or 5, or it leaves 2, 3 or 4 and has changed ERR and DVALID alone (R162 to R164). -/
theorem exec_digest_err_cases {s t : State} (h : exec .digest s = .next t) :
    t.engine.err = 0 ∨ t.engine.err = 5 ∨
    ((t.engine.err = 2 ∨ t.engine.err = 3 ∨ t.engine.err = 4) ∧
      t = { s with engine := { s.engine with err := t.engine.err, dvalid := false } }) := by
  rcases exec_digest_cases s with ⟨-, hx⟩ | ⟨-, -, hx⟩ | ⟨-, -, -, hx⟩ | ⟨-, -, -, -, hx⟩ | ⟨-, -, -, -, -, hx⟩ |
    ⟨-, -, -, -, hx⟩ <;> cases hx.symm.trans h
  case inl => exact .inr (.inr ⟨.inl rfl, rfl⟩)
  case inr.inl => exact .inr (.inr ⟨.inr (.inl rfl), rfl⟩)
  case inr.inr.inl => exact .inr (.inr ⟨.inr (.inr rfl), rfl⟩)
  case inr.inr.inr.inr.inl => exact .inr (.inl rfl)
  case inr.inr.inr.inr.inr => exact .inl (s.finishDigest_err _)

/-! ## The errors one by one -/

/-- R161: whatever the fields are, in either mode. -/
theorem exec_illegal (rsv : BitVec 28) (op : BitVec 4) (s : State) :
    exec (.illegal rsv op) s = .next { s with engine := { s.engine with err := 1 } } := by
  rw [exec, execIllegal, State.raise_illegalCmd_eq]

/-- Settles O21: the word decodes to ILLEGAL. -/
theorem illegalCommandChangesOnlyErr : Obligations.IllegalCommandChangesOnlyErr := by
  refine ⟨fun s c h1 h2 h3 => ?_, fun s rsv op => exec_illegal rsv op s⟩
  have hc : commandOf (.wrCmd c) = some (.illegal (rsvField c) (opField c)) :=
    congrArg some (decodeCommand_illegal h1 h2 h3)
  rw [exec_of_commandOf hc, commandInstr, exec_illegal]

/-- Settles O22: the mode is the first check of both commands. -/
theorem notReadyBeforeReset : Obligations.NotReadyBeforeReset := fun s hm =>
  ⟨(exec_compress_of_uninit hm).trans (congrArg _ s.raise_notReady_eq),
    (exec_digest_of_uninit hm).trans (congrArg _ s.raiseDigest_notReady_eq)⟩

/-- Settles O23: the check comes before any read, and 3 is none of the codes COMPRESS leaves. -/
theorem inputTooLargeBeforeAnyRead : Obligations.InputTooLargeBeforeAnyRead := by
  refine ⟨fun s hm hlen => ?_, fun s t h => ?_⟩
  · rw [exec_digest_of_tooLarge hm hlen, State.raiseDigest_inputTooLarge_eq]
  · rcases exec_compress_err_cases h with herr | herr | ⟨herr | herr, -⟩ <;> rw [herr] <;> decide

/-- Settles O24: the check comes before any read, and the empty range passes it for every SRC. -/
theorem addrOverflowBeforeAnyRead : Obligations.AddrOverflowBeforeAnyRead := by
  refine ⟨fun s hm hrange => ?_, fun s hm hlt hrange => ?_, fun s t hl h => ?_⟩
  · rw [exec_compress_of_overflow hm hrange, State.raise_addrOverflow_eq]
  · rw [exec_digest_of_overflow hm hlt hrange, State.raiseDigest_addrOverflow_eq]
  · cases hm : s.engine.mode with
    | uninit =>
      rw [err_of_exec (exec_digest_of_uninit hm) h, State.raiseDigest_err]
      decide
    | ready =>
      have herr : t.engine.err = 0 := err_of_exec (emptyDigestReadsNothing s hm hl) h
      rw [herr]
      decide

/-- Settles O25: the read ends in a bus error, which leaves the mode UNINIT, where both commands report NOT_READY. -/
theorem busErrorLeavesTheEngineUninit : Obligations.BusErrorLeavesTheEngineUninit := by
  refine ⟨fun s hm hle hside hrefused => ⟨freeHash s.draws 0, s.raise .busError, ?_, s.raise_busError_eq,
      notReadyBeforeReset _ rfl⟩,
    fun s hm hlt hle hside hrefused => ⟨freeHash s.draws 0, s.raiseDigest .busError, ?_, s.raiseDigest_busError_eq,
      notReadyBeforeReset _ rfl⟩⟩
  · rw [exec_compress_answer hm hle, State.readInput_refused hside hrefused, InputRead.answer]
  · rw [exec_digest_answer hm hlt hle, State.readInput_refused hside hrefused, InputRead.answer]

/-! ## Their order -/

/-- Settles O26: each check is reached only when those before it have passed, and the input is asked for last. -/
theorem firstErrorInPriorityOrderIsReported : Obligations.FirstErrorInPriorityOrderIsReported := by
  refine ⟨fun s t c h1 h2 h3 h => err_of_exec (illegalCommandChangesOnlyErr.1 s c h1 h2 h3) h,
    fun s t h => ⟨fun hm => err_of_exec (exec_compress_of_uninit hm) h,
      fun hm hrange => err_of_exec (exec_compress_of_overflow hm hrange) h, fun hm hle => ?_, fun herr => ?_⟩,
    fun s t h => ⟨fun hm => err_of_exec (exec_digest_of_uninit hm) h,
      fun hm hlen => err_of_exec (exec_digest_of_tooLarge hm hlen) h,
      fun hm hlt hrange => err_of_exec (exec_digest_of_overflow hm hlt hrange) h, fun hm hlt hle => ?_,
      fun herr => ?_⟩⟩
  · exact State.err_of_readInput_answer rfl s.finishCompress_err ((exec_compress_answer hm hle).symm.trans h)
  · rcases exec_compress_err_cases h with h0 | h5 | ⟨-, hframe⟩
    · simp [h0] at herr
    · simp [h5] at herr
    · exact hframe
  · exact State.err_of_readInput_answer rfl s.finishDigest_err ((exec_digest_answer hm hlt hle).symm.trans h)
  · rcases exec_digest_err_cases h with h0 | h5 | ⟨-, hframe⟩
    · simp [h0] at herr
    · simp [h5] at herr
    · exact hframe

/-! ## No traps -/

/-- Settles O44: the only outcome that is no next state is the refusal of a side-effecting input, which COMPRESS and
DIGEST alone have. -/
theorem everyInstructionAnswersOrIsRefusedByName : Obligations.EveryInstructionAnswersOrIsRefusedByName := by
  intro i s
  cases hc : commandOf i with
  | none =>
    rcases exec_register_cases hc s with ⟨_, hx⟩ | hx | ⟨_, -, hx⟩ | ⟨_, -, hx⟩ | ⟨_, -, hx⟩ | ⟨_, -, hx⟩
    all_goals exact .inl ⟨_, hx⟩
  | some c =>
    rw [exec_of_commandOf hc]
    cases c with
    | reset => exact .inl ⟨_, exec_reset s⟩
    | illegal rsv op => exact .inl ⟨_, rfl⟩
    | compress =>
      rcases exec_compress_cases s with ⟨-, hx⟩ | ⟨-, -, hx⟩ | ⟨hm, -, hside, hx⟩ | ⟨-, -, -, -, hx⟩ | ⟨-, -, -, hx⟩
      case inr.inr.inl => exact .inr ⟨hx, hm, .inl ⟨rfl, hside⟩⟩
      all_goals exact .inl ⟨_, hx⟩
    | digest =>
      rcases exec_digest_cases s with ⟨-, hx⟩ | ⟨-, -, hx⟩ | ⟨-, -, -, hx⟩ | ⟨hm, -, -, hside, hx⟩ |
        ⟨-, -, -, -, -, hx⟩ | ⟨-, -, -, -, hx⟩
      case inr.inr.inr.inl => exact .inr ⟨hx, hm, .inr ⟨rfl, hside⟩⟩
      all_goals exact .inl ⟨_, hx⟩

/-- Settles O9: `step` looks at the queue first. -/
theorem idleBlockHoldsItsState : Obligations.IdleBlockHoldsItsState := by
  intro s hp
  rw [step, hp]

end Sys2Proof.Machine
